-- ==== Sys2Proof/Word.lean ====
section
/-! DEFINITION. The word types of the port (R73): every item moves as a whole value of its stated width. -/

namespace Sys2Proof

/-- A 32-bit port value: `CW`, `STATUS`, `FCMD` (R73). -/
abbrev Word32 := BitVec 32

/-- A 64-bit port value: `OPA`, `RES`, `FOPA` (R73). -/
abbrev Word64 := BitVec 64

end Sys2Proof
end

