-- ==== Sys2Proof/Config.lean ====
section
/-! DEFINITION. What an implementation of MTCORE fixes (R6, R9), and the free values (R209, R259). -/

namespace Sys2Proof

/-- The two engine instances (R2, R30). The `E` field of a command word selects one (R91, R92). -/
inductive EngineId where
  | mt32
  | mt64
deriving DecidableEq, Repr

/-- The word width W of an engine (R6). -/
abbrev EngineId.width : EngineId → Nat
  | .mt32 => 32
  | .mt64 => 64

/-- The fixed per-variant parameters of R6, the twist masks of R161 and MATRIX_A of R162. `w` is the word width W.
The values stand in Machine/Constants.lean. -/
structure Consts (w : Nat) where
  /-- N: the state buffer's length in words. -/
  n : Nat
  /-- M: the feedback tap offset. -/
  m : Nat
  /-- C: the scalar-seeding multiplier. -/
  c : BitVec w
  /-- S: the seeding shift. -/
  s : Nat
  /-- C2: the array-seeding forward multiplier. -/
  c2 : BitVec w
  /-- C3: the array-seeding reverse multiplier. -/
  c3 : BitVec w
  /-- UM: ones in bits [W-1:31] (R161). -/
  um : BitVec w
  /-- LM: ones in bits [30:0] (R161). -/
  lm : BitVec w
  /-- MATRIX_A (R162). -/
  matrixA : BitVec w
deriving DecidableEq, Repr

/-- `REAL1_MODE` (R9, R203): one IEEE division, or a multiplication by the rounded reciprocal. -/
inductive Real1Mode where
  | quotient
  | reciprocal
deriving DecidableEq, Repr

/-- `TRUNC_SEL` (R9, R185): which 32 bits NEXT_T32 returns from an MT64 word. -/
inductive TruncSel where
  | low
  | high
deriving DecidableEq, Repr

/-- The implementation parameters R9 leaves to the model as named arguments. They stand in State as a field that no
step changes, so that a statement about every state is a statement about every value of them (log entry 3). -/
structure Params where
  /-- `KMAX`: the capacity of each engine's key store in words, at least 1. -/
  kmax : Nat
  real1Mode : Real1Mode
  truncSel : TruncSel
deriving DecidableEq, Repr

/-- R9: `KMAX` is at least 1. -/
def Params.wf (p : Params) : Bool := decide (1 ≤ p.kmax)

/-- One answer of the external entropy source (R259): a 64-bit value, or FAIL. -/
inductive EntropyAnswer where
  | data (r : Word64)
  | fail
deriving DecidableEq, Repr, Inhabited

/-- FREE VALUE (R259, U4): the answer to the n-th request that no scripted answer of State covers. It has no body:
nothing can be proved of which answer comes (log entry 5). -/
opaque Config.entropyAnswer : Nat → EntropyAnswer

/-- FREE VALUE (R9, R209, U5): the OPEN parameter `WARMUP_PRIME`, a map from a 64-bit entropy value to a prime.
It has no body: nothing can be proved of which prime it gives (log entry 6). -/
opaque Config.warmupPrime : Word64 → Nat.Primes

end Sys2Proof
end

