-- ==== Sys2Proof/Machine/Constants.lean ====
section
/-! DEFINITION. The constants of the two engines (R6, R161, R162) and the implementation parameters' defaults (R9). -/

namespace Sys2Proof

/-- MT32: MT19937 (R6, R161, R162). -/
def constsMt32 : Consts 32 where
  n := 624
  m := 397
  c := 1812433253#32
  s := 30
  c2 := 1664525#32
  c3 := 1566083941#32
  um := 0x80000000#32
  lm := 0x7FFFFFFF#32
  matrixA := 0x9908B0DF#32

/-- MT64: MT19937-64 (R6, R161, R162). -/
def constsMt64 : Consts 64 where
  n := 312
  m := 156
  c := 6364136223846793005#64
  s := 62
  c2 := 3935559000370003845#64
  c3 := 2862933555777941757#64
  um := 0xFFFFFFFF80000000#64
  lm := 0x000000007FFFFFFF#64
  matrixA := 0xB5026F5AA96619E9#64

/-- The constants of an engine (R6). -/
def EngineId.consts : (e : EngineId) → Consts e.width
  | .mt32 => constsMt32
  | .mt64 => constsMt64

/-- SEED_BASE: the scalar seed array seeding applies first (R6, R122). -/
def seedBase : Word64 := 19650218

/-- SEED_DEFAULT: the implicit default seed (R6, R160). -/
def seedDefault : Word64 := 5489

/-- The default parameter values of R9. -/
def Params.default : Params where
  kmax := 1024
  real1Mode := .quotient
  truncSel := .low

end Sys2Proof
end

