-- ==== Sys2Proof/Syntax.lean ====
section
/-! DEFINITION. The sixteen commands of the opcode map (R93), one constructor per row of spec/opcode_table.json. -/

namespace Sys2Proof

/-- One accepted transaction of the command port (R90): a 32-bit command word and a 64-bit operand. -/
structure Command where
  cw : Word32
  opa : Word64
deriving DecidableEq, Repr

/-- The commands of R93. Each names the engine its `E` field selects (R92). A command whose operand kind is not NONE
carries its 64-bit operand `OPA` as it was captured (R94); the meaning assembles it by R95. -/
inductive Instr where
  | seed (e : EngineId) (opa : Word64)
  | seedEnt (e : EngineId)
  | keyClr (e : EngineId)
  | keyPush (e : EngineId) (opa : Word64)
  | seedArr (e : EngineId)
  | next (e : EngineId)
  | nextS (e : EngineId)
  | nextPos (e : EngineId)
  | nextT32 (e : EngineId)
  | bounded (e : EngineId) (opa : Word64)
  | real1 (e : EngineId)
  | real2 (e : EngineId)
  | real3 (e : EngineId)
  | res53 (e : EngineId)
  | warmup (e : EngineId) (opa : Word64)
  | warmupEnt (e : EngineId)
deriving DecidableEq, Repr

/-- Why a command word is illegal: the three clauses of R97. -/
inductive DecodeError where
  /-- R97 (a): OP is none of the sixteen values of R93. -/
  | undefinedOp
  /-- R97 (b): `CW[31:9]` is not 0. -/
  | reservedBits
  /-- R97 (c): RES53 with E = 1. -/
  | res53OnMt64
deriving DecidableEq, Repr

/-- The operand kinds of R94. -/
inductive OperandKind where
  | none
  | seed64
  | keyw
  | boundw
  | count64
deriving DecidableEq, Repr

end Sys2Proof
end

