-- ==== Sys2Proof/Machine/State.lean ====
section
/-! DEFINITION. The state of MTCORE (10_state.md), as plain data, and the state after reset (R44, R45). -/

namespace Sys2Proof.Machine

/-- One engine instance (R30): its state buffer, its counters, its flag and its key store. `w` is the word width W. -/
structure Engine (w : Nat) where
  /-- `buf[0..N-1]` (R31). -/
  buf : List (BitVec w)
  /-- `remaining`, in [0, N] (R32). -/
  remaining : Nat
  /-- `cursor`, in [0, N] (R33). -/
  cursor : Nat
  /-- `seeded` (R34). -/
  seeded : Bool
  /-- `KEY[0..KMAX-1]` (R36). -/
  key : List (BitVec w)
  /-- `KLEN`, in [0, KMAX] (R36). -/
  klen : Nat
deriving DecidableEq, Repr

/-- What the outside world does at the block's inputs, one event a step: a host offers a command at the port (R90), or
the reset input is asserted (R280). -/
inductive HostInput where
  | offer (c : Command)
  | rst
deriving DecidableEq, Repr

/-- The machine. The fields from `params` on are the model's own: the implementation parameters (log entry 3), the inputs
still to come (log entries 4 and 5) and the count of unscripted entropy draws (log entry 5). -/
structure State where
  /-- The MT32 engine (R30). -/
  mt32 : Engine 32
  /-- The MT64 engine (R30). -/
  mt64 : Engine 64
  /-- `RES` (R37). -/
  res : Word64
  /-- Whether `RES` has a value: a result-producing command has completed since reset (R37). -/
  resValid : Bool
  /-- `STATUS` (R38). -/
  status : Word32
  /-- `FCMD` (R39). -/
  fcmd : Word32
  /-- `FOPA` (R39). -/
  fopa : Word64
  /-- `CW` as captured at acceptance (R40). -/
  cw : Word32
  /-- `OPA` as captured at acceptance (R40). -/
  opa : Word64
  params : Params
  hostIn : List HostInput
  entropyIn : List EntropyAnswer
  entropyDraws : Nat
deriving DecidableEq, Repr

/-- The reasons a step can stop. Both are R71's named internal reason (U23): a state whose index lies outside its array.
No state that satisfies State.Inv raises one, so a run from reset never does. -/
inductive Fault where
  /-- Raised by an extraction whose `cursor` names no word of `buf` (R71): safe, the machine stops and picks no word. -/
  | bufIndex
  /-- Raised by KEY_PUSH and SEED_ARR when `KLEN` lies outside the key store (R71 applied to `KEY`): safe, the machine
  stops and picks no word. -/
  | keyIndex
deriving DecidableEq, Repr

/-- The reasons the model gives no meaning. -/
inductive Refusal where
  /-- Raised by exec's arm of an instruction that has no meaning yet: safe. No arm raises it. -/
  | notModelled (mnemonic : String)
deriving DecidableEq, Repr

/-- An engine right after reset (R44): `remaining` = 1, `seeded` = 0, `KLEN` = 0. R44 leaves `buf`, `cursor` and `KEY`
unspecified; they are 0 here (log entry 1). -/
def Engine.reset (w n kmax : Nat) : Engine w where
  buf := List.replicate n 0
  remaining := 1
  cursor := 0
  seeded := false
  key := List.replicate kmax 0
  klen := 0

/-- The machine right after reset (R44, R45), with the default parameters of R9 and no input yet. `RES` holds no value
(R37): `resValid` is false, and the register reads 0 (log entry 2). -/
def State.reset : State where
  mt32 := Engine.reset 32 constsMt32.n Params.default.kmax
  mt64 := Engine.reset 64 constsMt64.n Params.default.kmax
  res := 0
  resValid := false
  status := 0x00000002
  fcmd := 0
  fopa := 0
  cw := 0
  opa := 0
  params := Params.default
  hostIn := []
  entropyIn := []
  entropyDraws := 0

end Sys2Proof.Machine
end

