-- ==== Sys2Proof/Machine/Binary64.lean ====
section
/-! DEFINITION. The IEEE 754 binary64 primitives of R14, on 64-bit encodings: fp, fadd, fmul, fdiv, rounded to nearest
with ties to even. The operands are the finite encodings with sign 0; R200 gives the converter no others (log entry 9). -/

namespace Sys2Proof.Machine

/-- A non-negative rational as a numerator and a denominator. -/
structure Frac where
  num : Nat
  den : Nat
deriving DecidableEq, Repr

/-- The exact value of a finite binary64 encoding with sign 0: exponent field 0 is F / 2^1074, any other exponent field E
is (2^52 + F) * 2^(E - 1075). -/
def binaryValue (f : Word64) : Frac :=
  let ex := (f.extractLsb' 52 11).toNat
  let fr := (f.extractLsb' 0 52).toNat
  if ex = 0 then { num := fr, den := 2 ^ 1074 }
  else if 1075 ≤ ex then { num := (2 ^ 52 + fr) * 2 ^ (ex - 1075), den := 1 }
  else { num := 2 ^ 52 + fr, den := 2 ^ (1075 - ex) }

/-- The integer nearest to num / den, a tie going to the even one. -/
def nearestEven (num den : Nat) : Nat :=
  let q := num / den
  let r := num % den
  if den < 2 * r then q + 1
  else if 2 * r = den ∧ q % 2 = 1 then q + 1
  else q

/-- The integer l with 2^l ≤ num / den < 2^(l+1), for num and den above 0. -/
def ilog2 (num den : Nat) : Int :=
  let l : Int := (Nat.log2 num : Int) - (Nat.log2 den : Int)
  if num * 2 ^ (-l).toNat < den * 2 ^ l.toNat then l - 1 else l

/-- The exponent of the last place of the binary64 format at the value num / den: 52 below the value's own, and never
below -1074. -/
def ulpExponent (num den : Nat) : Int := max (ilog2 num den - 52) (-1074)

/-- Round num / den to binary64, to nearest with ties to even, and encode it (R14). A significand that rounds up to 2^53
carries into the exponent field; a value beyond the largest finite one encodes as infinity. -/
def roundBinary64 (num den : Nat) : Word64 :=
  if num = 0 then 0
  else
    let e := ulpExponent num den
    let q := nearestEven (num * 2 ^ (-e).toNat) (den * 2 ^ e.toNat)
    BitVec.ofNat 64 (min ((e + 1074).toNat * 2 ^ 52 + q) 0x7FF0000000000000)

/-- `fp(v)`: an integer below 2^53 as binary64; the conversion is exact (R14). -/
def fp (v : Nat) : Word64 := roundBinary64 v 1

/-- `fadd` (R14). -/
def fadd (x y : Word64) : Word64 :=
  let a := binaryValue x
  let b := binaryValue y
  roundBinary64 (a.num * b.den + b.num * a.den) (a.den * b.den)

/-- `fmul` (R14). -/
def fmul (x y : Word64) : Word64 :=
  let a := binaryValue x
  let b := binaryValue y
  roundBinary64 (a.num * b.num) (a.den * b.den)

/-- `fdiv` (R14). -/
def fdiv (x y : Word64) : Word64 :=
  let a := binaryValue x
  let b := binaryValue y
  roundBinary64 (a.num * b.den) (a.den * b.num)

/-- The constant 0.5, which is 1 / 2 exactly. -/
def fpHalf : Word64 := roundBinary64 1 2

end Sys2Proof.Machine
end

