-- ==== Sys2Proof/Machine/Flags.lean ====
section
/-! DEFINITION. The fields of STATUS (R38), the fault causes (R250) and the two level signals that follow STATUS (R90,
R254). The engine flag `seeded` is a field of its own (R34). -/

namespace Sys2Proof.Machine

/-- The causes of R250 that a command can raise. -/
inductive FaultCode where
  | illegal
  | bound
  | entropy
  | keyEmpty
  | keyFull
deriving DecidableEq, Repr

/-- The FCODE value of a cause (R250). -/
def FaultCode.fcode : FaultCode → BitVec 4
  | .illegal => 1
  | .bound => 2
  | .entropy => 3
  | .keyEmpty => 4
  | .keyFull => 5

/-- `STATUS[0]`, FAULTED (R38). -/
def statusFaulted (st : Word32) : Bool := st.getLsbD 0

/-- `STATUS[1]`, READY (R38). -/
def statusReady (st : Word32) : Bool := st.getLsbD 1

/-- `STATUS[7:4]`, FCODE (R38). -/
def statusFcode (st : Word32) : BitVec 4 := st.extractLsb' 4 4

/-- The bits of STATUS that are no field: [3:2] and [31:8] (R38). -/
def statusReservedMask : Word32 := 0xFFFFFF0C

/-- STATUS after fault entry (R251): FAULTED = 1, READY = 0, FCODE = the cause; the reserved bits are left as they were. -/
def statusAfterFault (st : Word32) (c : FaultCode) : Word32 :=
  (st &&& statusReservedMask) ||| (c.fcode.setWidth 32 <<< 4) ||| 1

/-- FAULTED: a fault has been taken since reset (R38). -/
def State.faulted (s : State) : Bool := statusFaulted s.status

/-- READY: the port accepts a command (R38). -/
def State.ready (s : State) : Bool := statusReady s.status

/-- FCODE: the cause of the fault taken (R38). -/
def State.fcode (s : State) : BitVec 4 := statusFcode s.status

/-- The level output `fault`, equal to `STATUS.FAULTED` (R254). -/
def State.faultOutput (s : State) : Bool := s.faulted

/-- The port signal `cmd_ready`, equal to `STATUS.READY` (R90). -/
def State.cmdReady (s : State) : Bool := s.ready

end Sys2Proof.Machine
end

