-- ==== Sys2Proof/Machine/Operands.lean ====
section
/-! DEFINITION. Operand assembly (R12, R94, R95) and the widening of results into RES (R37). -/

namespace Sys2Proof.Machine

/-- `trunc_W(OPA)` (R12). -/
def truncOpa (w : Nat) (opa : Word64) : BitVec w := opa.setWidth w

/-- SEED64: the seed is `OPA` (R95). -/
def seedOperand (opa : Word64) : Word64 := opa

/-- KEYW: the key word is `trunc_W(OPA)` (R95). -/
def keyOperand (w : Nat) (opa : Word64) : BitVec w := truncOpa w opa

/-- BOUNDW: `n = signed_W(OPA[W-1:0])` (R95). -/
def boundOperand (w : Nat) (opa : Word64) : Int := (truncOpa w opa).toInt

/-- COUNT64: the count is `OPA` as an unsigned integer (R95). -/
def countOperand (opa : Word64) : Nat := opa.toNat

/-- `zext_64` (R12): how an integer result is widened into RES (R37). -/
def zext64 {w : Nat} (y : BitVec w) : Word64 := y.setWidth 64

/-- `sext_64` (R12): how NEXT_S widens its result into RES (R37). -/
def sext64 {w : Nat} (y : BitVec w) : Word64 := y.signExtend 64

end Sys2Proof.Machine
end

