-- ==== Sys2Proof/Machine/Generator.lean ====
section
/-! DEFINITION. The internal procedures of an engine: ScalarSeed (R120), ArraySeed (R122 to R124), Regenerate (R160 to
R163), Temper (R181, R182) and Extract (R180). Each of the three buffer procedures produces its words in the order its
rule writes them; Machine/Reference.lean writes the same procedures as the rules' own loops over buf[i] (log entry 8). -/

namespace Sys2Proof.Machine

variable {w : Nat}

/-! ## ScalarSeed -/

/-- R120: `C * (p ^ (p >> S)) + j`, where p is `buf[j-1]`. -/
def seedWord (k : Consts w) (p : BitVec w) (j : Nat) : BitVec w :=
  k.c * (p ^^^ (p >>> k.s)) + BitVec.ofNat w j

/-- The next `count` words of R120's loop: `buf[j]`, `buf[j+1]`, ..., where p is `buf[j-1]`. -/
def seedWordsFrom (k : Consts w) (p : BitVec w) (j : Nat) : (count : Nat) → List (BitVec w)
  | 0 => []
  | count + 1 => seedWord k p j :: seedWordsFrom k (seedWord k p j) (j + 1) count

/-- The buffer R120 fills: `buf[0] = trunc_W(s)`, then the loop for j in 1..N-1. -/
def scalarWords (k : Consts w) (s : Word64) : List (BitVec w) :=
  truncOpa w s :: seedWordsFrom k (truncOpa w s) 1 (k.n - 1)

/-- `ScalarSeed(s)` (R120). `cursor` is not written (R131). -/
def Engine.scalarSeed (k : Consts w) (s : Word64) (g : Engine w) : Engine w :=
  { g with buf := scalarWords k s, seeded := true, remaining := 1 }

/-! ## ArraySeed -/

/-- Where a mixing pass of R122 or R123 stands. `done` holds `buf[i-1], ..., buf[1]`, `todo` holds `buf[i], ..., buf[N-1]`,
and `prev` is `buf[i-1]`: right after a wrap that is `buf[0]`, which the wrap has set to `buf[N-1]`. -/
structure Mix (w : Nat) where
  prev : BitVec w
  done : List (BitVec w)
  todo : List (BitVec w)
  i : Nat
deriving DecidableEq, Repr

/-- Write v as `buf[i]` and step i. When i reaches N, `buf[0] <- buf[N-1]` and `i <- 1`. -/
def Mix.write (m : Mix w) (v : BitVec w) : Mix w :=
  match m.todo.tail with
  | [] => { prev := v, done := [], todo := (v :: m.done).reverse, i := 1 }
  | rest => { prev := v, done := v :: m.done, todo := rest, i := m.i + 1 }

/-- `buf[i] ^ ((buf[i-1] ^ (buf[i-1] >> S)) * mult)`, the part the two passes share. -/
def Mix.blend (k : Consts w) (mult : BitVec w) (m : Mix w) : BitVec w :=
  m.todo.headD 0 ^^^ ((m.prev ^^^ (m.prev >>> k.s)) * mult)

/-- The forward pass (R122), `count` steps. `j` is the key index, and `keyRest` holds `KEY[j], ..., KEY[L-1]`; when j
reaches L both go back to the start of the key. -/
def forwardPass (k : Consts w) (key : List (BitVec w)) : (count : Nat) → (keyRest : List (BitVec w)) → (j : Nat) →
    Mix w → Mix w
  | 0, _, _, m => m
  | count + 1, keyRest, j, m =>
    let m' := m.write (m.blend k k.c2 + keyRest.headD 0 + BitVec.ofNat w j)
    match keyRest.tail with
    | [] => forwardPass k key count key 0 m'
    | rest => forwardPass k key count rest (j + 1) m'

/-- The reverse pass (R123), `count` steps, from the i the forward pass left. -/
def reversePass (k : Consts w) : (count : Nat) → Mix w → Mix w
  | 0, m => m
  | count + 1, m => reversePass k count (m.write (m.blend k k.c3 - BitVec.ofNat w m.i))

/-- The buffer `ArraySeed(L)` leaves (R122 to R124) for the key `KEY[0..L-1]`: both passes over `ScalarSeed(19650218)`, then
`buf[0] <- 1 << (W-1)`. -/
def arrayWords (k : Consts w) (key : List (BitVec w)) : List (BitVec w) :=
  let b := scalarWords k seedBase
  let start : Mix w := { prev := b.headD 0, done := [], todo := b.tail, i := 1 }
  let mixed := reversePass k (k.n - 1) (forwardPass k key (max k.n key.length) key 0 start)
  (1#w <<< (w - 1)) :: (mixed.done.reverse ++ mixed.todo)

/-- `ArraySeed(L)` on the key `KEY[0..L-1]` (R122 to R124). `cursor`, `KEY` and `KLEN` are not written (R125, R131). -/
def Engine.arraySeed (k : Consts w) (key : List (BitVec w)) (g : Engine w) : Engine w :=
  { g with buf := arrayWords k key, seeded := true, remaining := 1 }

/-! ## Regenerate -/

/-- One step of the sweep (R160): the new `buf[i]` from `x` = `buf[i]`, `next` = `buf[(i+1) mod N]` and
`tap` = `buf[(i+M) mod N]`. -/
def twistWord (k : Consts w) (x next tap : BitVec w) : BitVec w :=
  let y := (x &&& k.um) ||| (next &&& k.lm)
  let t := y >>> 1
  tap ^^^ (if y.getLsbD 0 then t ^^^ k.matrixA else t)

/-- The new words of consecutive positions, as long as a tap and a next word stand ready. `xs` holds `buf[i]`,
`buf[i+1]`, ... and `taps` holds the taps of positions i, i+1, ... -/
def twistBlock (k : Consts w) : (xs taps : List (BitVec w)) → List (BitVec w)
  | x :: next :: xs, tap :: taps => twistWord k x next tap :: twistBlock k (next :: xs) taps
  | _, _ => []

/-- The sweep in order (R163), block by block. The taps of the first block are the old words `buf[M..N-1]`; the taps of
every later block are the new words of the block before it. -/
def twistBlocks (k : Consts w) : (fuel : Nat) → (xs taps : List (BitVec w)) → List (BitVec w)
  | 0, _, _ => []
  | fuel + 1, xs, taps =>
    let block := twistBlock k xs taps
    block ++ twistBlocks k fuel (xs.drop taps.length) block

/-- The buffer after one whole sweep (R160, R163). The word after `buf[N-1]` is `buf[0]`, which is new by then. -/
def twistWords (k : Consts w) (b : List (BitVec w)) : List (BitVec w) :=
  let new0 := twistWord k (b.getD 0 0) (b.getD 1 0) (b.getD k.m 0)
  twistBlocks k k.n (b ++ [new0]) (b.drop k.m)

/-- The default-seed path of R160: `if seeded = 0: ScalarSeed(5489)`. -/
def Engine.withDefaultSeed (k : Consts w) (g : Engine w) : Engine w :=
  if g.seeded then g else g.scalarSeed k seedDefault

/-- `Regenerate()` (R160). -/
def Engine.regenerate (k : Consts w) (g : Engine w) : Engine w :=
  let g' := g.withDefaultSeed k
  { g' with buf := twistWords k g'.buf, remaining := k.n, cursor := 0 }

/-! ## Tempering and extraction -/

/-- `Temper_32(y)` (R181). -/
def temper32 (y : BitVec 32) : BitVec 32 :=
  let y := y ^^^ (y >>> 11)
  let y := y ^^^ ((y <<< 7) &&& 0x9D2C5680#32)
  let y := y ^^^ ((y <<< 15) &&& 0xEFC60000#32)
  y ^^^ (y >>> 18)

/-- `Temper_64(y)` (R182). -/
def temper64 (y : BitVec 64) : BitVec 64 :=
  let y := y ^^^ ((y >>> 29) &&& 0x5555555555555555#64)
  let y := y ^^^ ((y <<< 17) &&& 0x71D67FFFEDA60000#64)
  let y := y ^^^ ((y <<< 37) &&& 0xFFF7EEE000000000#64)
  y ^^^ (y >>> 43)

/-- `Temper_W` of an engine (R180). -/
def temper : (e : EngineId) → BitVec e.width → BitVec e.width
  | .mt32, y => temper32 y
  | .mt64, y => temper64 y

/-- The first two lines of R180: decrement `remaining`, and regenerate when that leaves 0. -/
def Engine.refill (k : Consts w) (g : Engine w) : Engine w :=
  let g' := { g with remaining := g.remaining - 1 }
  if g'.remaining = 0 then g'.regenerate k else g'

/-- `buf[i]` (R71): the whole word at index i, and a named internal fault for an index outside [0, N). -/
def readBuf (k : Consts w) (g : Engine w) (i : Nat) : Except Fault (BitVec w) :=
  if i < k.n then
    match g.buf[i]? with
    | some y => .ok y
    | none => .error .bufIndex
  else .error .bufIndex

/-- `Extract()` before tempering (R180): the state word consumed, and the engine after it. -/
def Engine.extractRaw (k : Consts w) (g : Engine w) : Except Fault (BitVec w × Engine w) :=
  let g' := g.refill k
  match readBuf k g' g'.cursor with
  | .ok y => .ok (y, { g' with cursor := g'.cursor + 1 })
  | .error f => .error f

/-- c extractions with every result discarded (R208). -/
def Engine.discard (k : Consts w) : (c : Nat) → Engine w → Except Fault (Engine w)
  | 0, g => .ok g
  | c + 1, g =>
    match g.extractRaw k with
    | .ok (_, g') => Engine.discard k c g'
    | .error f => .error f

/-! ## The key store -/

/-- `KEY_CLR` on an engine: `KLEN <- 0` (R128). The words of `KEY` stay. -/
def Engine.keyClear (g : Engine w) : Engine w := { g with klen := 0 }

/-- `KEY[KLEN] <- v; KLEN <- KLEN + 1` (R129), for `KLEN` inside the store. -/
def Engine.keyAppend (g : Engine w) (v : BitVec w) : Except Fault (Engine w) :=
  if g.klen < g.key.length then .ok { g with key := g.key.set g.klen v, klen := g.klen + 1 } else .error .keyIndex

/-- The key `KEY[0..KLEN-1]` (R130), for `KLEN` inside the store. -/
def Engine.keyWords (g : Engine w) : Except Fault (List (BitVec w)) :=
  if g.klen ≤ g.key.length then .ok (g.key.take g.klen) else .error .keyIndex

end Sys2Proof.Machine
end

