-- ==== Sys2Proof/Machine/Ops.lean ====
section
/-! DEFINITION. The named operations over State that the meanings share: the selected engine, RES, fault entry, reset, the
capture of a command, the entropy port and the host's reads. -/

namespace Sys2Proof.Machine

/-! ## The selected engine (R30, R92) -/

/-- The engine instance a command selects. -/
def State.engine (s : State) : (e : EngineId) → Engine e.width
  | .mt32 => s.mt32
  | .mt64 => s.mt64

/-- The state with the selected engine instance replaced; the other instance is not touched (R30, R78). -/
def State.setEngine (s : State) : (e : EngineId) → Engine e.width → State
  | .mt32, g => { s with mt32 := g }
  | .mt64, g => { s with mt64 := g }

/-! ## RES (R37) -/

/-- `RES <- v`. From here on RES has a value. -/
def State.writeRes (s : State) (v : Word64) : State := { s with res := v, resValid := true }

/-! ## Faults (R251) -/

/-- Fault entry (R251), the one operation every fault takes: STATUS records the cause and goes not ready, FCMD and FOPA
record the captured command. Nothing else changes. -/
def State.raiseFault (s : State) (c : FaultCode) : State :=
  { s with status := statusAfterFault s.status c, fcmd := s.cw, fopa := s.opa }

/-- Leaving the faulted state: the reset input, and nothing else (R252, R280). Every item of the block takes its reset
value (R44, R45). The implementation's parameters and the inputs still to come are no items of the block. -/
def State.assertReset (s : State) : State :=
  { State.reset with
    mt32 := Engine.reset 32 constsMt32.n s.params.kmax
    mt64 := Engine.reset 64 constsMt64.n s.params.kmax
    params := s.params
    hostIn := s.hostIn
    entropyIn := s.entropyIn
    entropyDraws := s.entropyDraws }

/-! ## The command port (R40, R90) -/

/-- Acceptance captures `CW` and `OPA` (R40, R90). -/
def State.capture (s : State) (c : Command) : State := { s with cw := c.cw, opa := c.opa }

/-- The host inputs still to come, after this step's one is taken. -/
def State.setHostIn (s : State) (rest : List HostInput) : State := { s with hostIn := rest }

/-! ## The entropy port (R259) -/

/-- The answer the entropy source gives to the next request: the next scripted one, or a free value (log entry 5). -/
def State.entropyAnswer (s : State) : EntropyAnswer :=
  match s.entropyIn with
  | a :: _ => a
  | [] => Config.entropyAnswer s.entropyDraws

/-- The state once the entropy source has answered a request: that answer is used up. The block itself is not changed
(R41). -/
def State.afterEntropy (s : State) : State :=
  match s.entropyIn with
  | _ :: rest => { s with entropyIn := rest }
  | [] => { s with entropyDraws := s.entropyDraws + 1 }

/-- `WARMUP_PRIME(r)` (R9, R209): a prime below 2^64, otherwise open. A prime the free value gives at or above 2^64 is
replaced by 2, so that the value ranges over exactly the primes below 2^64 (log entry 6). -/
def warmupCount (r : Word64) : Nat :=
  if (Config.warmupPrime r).val < 2 ^ 64 then (Config.warmupPrime r).val else 2

/-! ## Extraction on the selected engine (R180) -/

/-- `Extract()` on engine e: the tempered word, and the state after it. -/
def State.extract (s : State) (e : EngineId) : Except Fault (BitVec e.width × State) :=
  match (s.engine e).extractRaw e.consts with
  | .ok (y, g) => .ok (temper e y, s.setEngine e g)
  | .error f => .error f

/-- `RES <- f(Extract())`, the shape of every command that converts one word. -/
def State.convertWord (s : State) (e : EngineId) (f : BitVec e.width → Word64) :
    Host.Outcome State Fault Refusal :=
  match s.extract e with
  | .ok (y, s') => .next (s'.writeRes (f y))
  | .error x => .fault x

/-- `repeat c times: Extract()` on engine e (R208, R209); RES is not written. -/
def State.discardWords (s : State) (e : EngineId) (c : Nat) : Host.Outcome State Fault Refusal :=
  match (s.engine e).discard e.consts c with
  | .ok g => .next (s.setEngine e g)
  | .error x => .fault x

/-! ## The host's reads (R37, R38, R39, R75): no read changes the state -/

/-- A host read of RES: no value before the first result (R37, U14). -/
def State.hostRes (s : State) : Option Word64 := if s.resValid then some s.res else none

/-- A host read of STATUS (R38). -/
def State.hostStatus (s : State) : Word32 := s.status

/-- A host read of FCMD (R39). -/
def State.hostFcmd (s : State) : Word32 := s.fcmd

/-- A host read of FOPA (R39). -/
def State.hostFopa (s : State) : Word64 := s.fopa

end Sys2Proof.Machine
end

