-- ==== Sys2Proof/Machine/Derived.lean ====
section
/-! DEFINITION. The uniform-variate converter and warmup (R201 to R209). -/

namespace Sys2Proof.Machine

/-! ## Integers -/

/-- The word with its sign bit masked off (R201). -/
def maskSign {w : Nat} (y : BitVec w) : BitVec w := y &&& ((1#w <<< (w - 1)) - 1#w)

/-- NEXT_POS (R201): `RES <- zext_64(Extract() & ((1 << (W-1)) - 1))`. -/
def execNextPos (e : EngineId) (s : State) : Host.Outcome State Fault Refusal :=
  s.convertWord e (fun y => zext64 (maskSign y))

/-- The word, as an unsigned number, modulo a positive n (R202). -/
def wordMod {w : Nat} (y : BitVec w) (n : Int) : BitVec w := BitVec.ofNat w (y.toNat % n.toNat)

/-- BOUNDED (R202): the bound is checked before any word is consumed. -/
def execBounded (e : EngineId) (opa : Word64) (s : State) : Host.Outcome State Fault Refusal :=
  if boundOperand e.width opa ≤ 0 then .next (s.raiseFault .bound)
  else s.convertWord e (fun y => zext64 (wordMod y (boundOperand e.width opa)))

/-! ## Reals -/

/-- REAL1's conversion (R203): `x / D`, or `x * (1 / D)` under RECIPROCAL. -/
def real1Quotient (mode : Real1Mode) (x d : Word64) : Word64 :=
  match mode with
  | .quotient => fdiv x d
  | .reciprocal => fmul x (fdiv (fp 1) d)

/-- REAL1's word conversion on each engine (R203): `D` is 2^32 - 1 on MT32 and 2^53 - 1 on MT64. -/
def real1Bits (mode : Real1Mode) : (e : EngineId) → BitVec e.width → Word64
  | .mt32, y => real1Quotient mode (fp (BitVec.toNat y)) (fp (2 ^ 32 - 1))
  | .mt64, y => real1Quotient mode (fp (BitVec.toNat (y >>> 11))) (fp (2 ^ 53 - 1))

/-- REAL1 (R203). -/
def execReal1 (e : EngineId) (s : State) : Host.Outcome State Fault Refusal :=
  s.convertWord e (real1Bits s.params.real1Mode e)

/-- The constant 2^k as binary64; it is exact (R14). -/
def fpPow2 (k : Nat) : Word64 := roundBinary64 (2 ^ k) 1

/-- REAL2's word conversion on each engine (R204). -/
def real2Bits : (e : EngineId) → BitVec e.width → Word64
  | .mt32, y => fdiv (fp (BitVec.toNat y)) (fpPow2 32)
  | .mt64, y => fdiv (fp (BitVec.toNat (y >>> 11))) (fpPow2 53)

/-- REAL2 (R204). -/
def execReal2 (e : EngineId) (s : State) : Host.Outcome State Fault Refusal :=
  s.convertWord e (real2Bits e)

/-- REAL3's word conversion on each engine (R205). -/
def real3Bits : (e : EngineId) → BitVec e.width → Word64
  | .mt32, y => fdiv (fadd (fp (BitVec.toNat y)) fpHalf) (fpPow2 32)
  | .mt64, y => fdiv (fadd (fp (BitVec.toNat (y >>> 12))) fpHalf) (fpPow2 52)

/-- REAL3 (R205). -/
def execReal3 (e : EngineId) (s : State) : Host.Outcome State Fault Refusal :=
  s.convertWord e (real3Bits e)

/-- RES53's combination of two words, the first supplying the high part (R206). -/
def res53Bits (first second : BitVec 32) : Word64 :=
  let a := fp (first >>> 5).toNat
  let b := fp (second >>> 6).toNat
  fdiv (fadd (fmul a (fpPow2 26)) b) (fpPow2 53)

/-- RES53 (R206). With E = 1 the command word is illegal (R97 (c)); the decoder gives no such command. -/
def execRes53 (e : EngineId) (s : State) : Host.Outcome State Fault Refusal :=
  match e with
  | .mt64 => .next (s.raiseFault .illegal)
  | .mt32 =>
    match s.extract .mt32 with
    | .error x => .fault x
    | .ok (y1, s1) =>
      match s1.extract .mt32 with
      | .error x => .fault x
      | .ok (y2, s2) => .next (s2.writeRes (res53Bits y1 y2))

/-! ## Warmup -/

/-- WARMUP (R208): `repeat c times: Extract()`, every result discarded. -/
def execWarmup (e : EngineId) (opa : Word64) (s : State) : Host.Outcome State Fault Refusal :=
  s.discardWords e (countOperand opa)

/-- WARMUP_ENT (R209): discard `WARMUP_PRIME(r)` words for the entropy source's r; its failure is Fault(ENTROPY). -/
def execWarmupEnt (e : EngineId) (s : State) : Host.Outcome State Fault Refusal :=
  match s.entropyAnswer with
  | .fail => .next (s.afterEntropy.raiseFault .entropy)
  | .data r => s.afterEntropy.discardWords e (warmupCount r)

end Sys2Proof.Machine
end

