-- ==== Sys2Proof/Machine/Extraction.lean ====
section
/-! DEFINITION. The commands that return a tempered word (R183 to R185). -/

namespace Sys2Proof.Machine

/-- NEXT (R183): `RES <- zext_64(Extract())`. -/
def execNext (e : EngineId) (s : State) : Host.Outcome State Fault Refusal :=
  s.convertWord e zext64

/-- NEXT_S (R184): `RES <- sext_64(Extract())`. -/
def execNextS (e : EngineId) (s : State) : Host.Outcome State Fault Refusal :=
  s.convertWord e sext64

/-- The 32 bits NEXT_T32 keeps of a word (R185): all of an MT32 word, the half `TRUNC_SEL` names of an MT64 word. -/
def truncated32 (sel : TruncSel) : (e : EngineId) → BitVec e.width → BitVec 32
  | .mt32, y => y
  | .mt64, y =>
    match sel with
    | .low => BitVec.extractLsb' 0 32 y
    | .high => BitVec.extractLsb' 32 32 y

/-- NEXT_T32 (R185). -/
def execNextT32 (e : EngineId) (s : State) : Host.Outcome State Fault Refusal :=
  s.convertWord e (fun y => zext64 (truncated32 s.params.truncSel e y))

end Sys2Proof.Machine
end

