-- ==== Sys2Proof/Machine/Seeding.lean ====
section
/-! DEFINITION. The seeding commands (R126 to R130). -/

namespace Sys2Proof.Machine

/-- SEED (R126): `ScalarSeed(OPA)`. -/
def execSeed (e : EngineId) (opa : Word64) (s : State) : Host.Outcome State Fault Refusal :=
  .next (s.setEngine e ((s.engine e).scalarSeed e.consts (seedOperand opa)))

/-- SEED_ENT (R127): seed with the 64-bit value the entropy source gives; its failure is Fault(ENTROPY). -/
def execSeedEnt (e : EngineId) (s : State) : Host.Outcome State Fault Refusal :=
  .next (match s.entropyAnswer with
    | .data r => s.afterEntropy.setEngine e ((s.engine e).scalarSeed e.consts r)
    | .fail => s.afterEntropy.raiseFault .entropy)

/-- KEY_CLR (R128): `KLEN <- 0`. -/
def execKeyClr (e : EngineId) (s : State) : Host.Outcome State Fault Refusal :=
  .next (s.setEngine e (s.engine e).keyClear)

/-- KEY_PUSH (R129): append one key word; Fault(KEY_FULL) when the store holds KMAX words. -/
def execKeyPush (e : EngineId) (opa : Word64) (s : State) : Host.Outcome State Fault Refusal :=
  if (s.engine e).klen = s.params.kmax then .next (s.raiseFault .keyFull)
  else
    match (s.engine e).keyAppend (keyOperand e.width opa) with
    | .ok g => .next (s.setEngine e g)
    | .error f => .fault f

/-- SEED_ARR (R130): `ArraySeed(KLEN)`; Fault(KEY_EMPTY) when `KLEN` = 0. -/
def execSeedArr (e : EngineId) (s : State) : Host.Outcome State Fault Refusal :=
  if (s.engine e).klen = 0 then .next (s.raiseFault .keyEmpty)
  else
    match (s.engine e).keyWords with
    | .ok key => .next (s.setEngine e ((s.engine e).arraySeed e.consts key))
    | .error f => .fault f

end Sys2Proof.Machine
end

