-- ==== Sys2Proof/Machine/Dispatch.lean ====
section
/-! DEFINITION. The effect of one accepted command: the rule named for its OP in R93 (R103). -/

namespace Sys2Proof.Machine

def exec (i : Instr) (s : State) : Host.Outcome State Fault Refusal :=
  match i with
  -- seeding (40_seeding.md)
  | .seed e opa => Sys2Proof.Machine.execSeed e opa s
  | .seedEnt e => Sys2Proof.Machine.execSeedEnt e s
  | .keyClr e => Sys2Proof.Machine.execKeyClr e s
  | .keyPush e opa => Sys2Proof.Machine.execKeyPush e opa s
  | .seedArr e => Sys2Proof.Machine.execSeedArr e s
  -- extraction (42_extraction.md)
  | .next e => Sys2Proof.Machine.execNext e s
  | .nextS e => Sys2Proof.Machine.execNextS e s
  | .nextPos e => Sys2Proof.Machine.execNextPos e s
  | .nextT32 e => Sys2Proof.Machine.execNextT32 e s
  -- derived outputs (43_derived.md)
  | .bounded e opa => Sys2Proof.Machine.execBounded e opa s
  | .real1 e => Sys2Proof.Machine.execReal1 e s
  | .real2 e => Sys2Proof.Machine.execReal2 e s
  | .real3 e => Sys2Proof.Machine.execReal3 e s
  | .res53 e => Sys2Proof.Machine.execRes53 e s
  -- warmup (43_derived.md)
  | .warmup e opa => Sys2Proof.Machine.execWarmup e opa s
  | .warmupEnt e => Sys2Proof.Machine.execWarmupEnt e s

end Sys2Proof.Machine
end

