-- ==== Sys2Proof/WellFormed.lean ====
section
/-! DEFINITION. Which commands have an encoding: RES53 exists only for E = 0 (R92, R97 (c)); every other command of
R93 exists for both engines. -/

namespace Sys2Proof

/-- A command that R93 and R97 allow on its engine. -/
def Instr.wellFormed : Instr → Bool
  | .seed _ _ => true
  | .seedEnt _ => true
  | .keyClr _ => true
  | .keyPush _ _ => true
  | .seedArr _ => true
  | .next _ => true
  | .nextS _ => true
  | .nextPos _ => true
  | .nextT32 _ => true
  | .bounded _ _ => true
  | .real1 _ => true
  | .real2 _ => true
  | .real3 _ => true
  | .res53 e => decide (e = .mt32)
  | .warmup _ _ => true
  | .warmupEnt _ => true

end Sys2Proof
end

