-- ==== Sys2Proof/Decode.lean ====
section
/-! DEFINITION. Decoding a captured command (R91, R93, R97, R99), total and rejecting by name, and the encoder written
from the same table. -/

namespace Sys2Proof

/-- `CW[7:0]`, the field OP (R91). -/
def cwOp (cw : Word32) : BitVec 8 := cw.extractLsb' 0 8

/-- `CW[8]`, the field E (R91): 0 is MT32, 1 is MT64. -/
def cwEngine (cw : Word32) : EngineId := if cw.getLsbD 8 then .mt64 else .mt32

/-- `CW[31:9]`, the field RSV (R91). -/
def cwReserved (cw : Word32) : BitVec 23 := cw.extractLsb' 9 23

/-- The opcode map of R93, with clauses (a) and (c) of R97. -/
def decodeOp (op : BitVec 8) (e : EngineId) (opa : Word64) : Except DecodeError Instr :=
  match op.toNat with
  | 0x01 => .ok (.seed e opa)
  | 0x02 => .ok (.seedEnt e)
  | 0x03 => .ok (.keyClr e)
  | 0x04 => .ok (.keyPush e opa)
  | 0x05 => .ok (.seedArr e)
  | 0x10 => .ok (.next e)
  | 0x11 => .ok (.nextS e)
  | 0x12 => .ok (.nextPos e)
  | 0x13 => .ok (.nextT32 e)
  | 0x14 => .ok (.bounded e opa)
  | 0x20 => .ok (.real1 e)
  | 0x21 => .ok (.real2 e)
  | 0x22 => .ok (.real3 e)
  | 0x23 => if e = .mt32 then .ok (.res53 .mt32) else .error .res53OnMt64
  | 0x30 => .ok (.warmup e opa)
  | 0x31 => .ok (.warmupEnt e)
  | _ => .error .undefinedOp

/-- Decode a captured command: the check of R97 and the dispatch on OP and E of R99 and R103. -/
def decode (c : Command) : Except DecodeError Instr :=
  if cwReserved c.cw = 0 then decodeOp (cwOp c.cw) (cwEngine c.cw) c.opa else .error .reservedBits

/-- The OP value of a command (R93). -/
def Instr.opcode : Instr → BitVec 8
  | .seed _ _ => 0x01
  | .seedEnt _ => 0x02
  | .keyClr _ => 0x03
  | .keyPush _ _ => 0x04
  | .seedArr _ => 0x05
  | .next _ => 0x10
  | .nextS _ => 0x11
  | .nextPos _ => 0x12
  | .nextT32 _ => 0x13
  | .bounded _ _ => 0x14
  | .real1 _ => 0x20
  | .real2 _ => 0x21
  | .real3 _ => 0x22
  | .res53 _ => 0x23
  | .warmup _ _ => 0x30
  | .warmupEnt _ => 0x31

/-- The engine a command selects (R92). -/
def Instr.engine : Instr → EngineId
  | .seed e _ => e
  | .seedEnt e => e
  | .keyClr e => e
  | .keyPush e _ => e
  | .seedArr e => e
  | .next e => e
  | .nextS e => e
  | .nextPos e => e
  | .nextT32 e => e
  | .bounded e _ => e
  | .real1 e => e
  | .real2 e => e
  | .real3 e => e
  | .res53 e => e
  | .warmup e _ => e
  | .warmupEnt e => e

/-- The operand kind of a command (R93, R94). -/
def Instr.operandKind : Instr → OperandKind
  | .seed _ _ => .seed64
  | .seedEnt _ => .none
  | .keyClr _ => .none
  | .keyPush _ _ => .keyw
  | .seedArr _ => .none
  | .next _ => .none
  | .nextS _ => .none
  | .nextPos _ => .none
  | .nextT32 _ => .none
  | .bounded _ _ => .boundw
  | .real1 _ => .none
  | .real2 _ => .none
  | .real3 _ => .none
  | .res53 _ => .none
  | .warmup _ _ => .count64
  | .warmupEnt _ => .none

/-- The operand an assembler puts into `OPA`: the carried operand, and 0 for kind NONE (R100). -/
def Instr.operand : Instr → Word64
  | .seed _ opa => opa
  | .seedEnt _ => 0
  | .keyClr _ => 0
  | .keyPush _ opa => opa
  | .seedArr _ => 0
  | .next _ => 0
  | .nextS _ => 0
  | .nextPos _ => 0
  | .nextT32 _ => 0
  | .bounded _ opa => opa
  | .real1 _ => 0
  | .real2 _ => 0
  | .real3 _ => 0
  | .res53 _ => 0
  | .warmup _ opa => opa
  | .warmupEnt _ => 0

/-- The E bit of an engine (R91). -/
def EngineId.bit : EngineId → Word32
  | .mt32 => 0
  | .mt64 => 1

/-- `CW = (E << 8) | OP` (R91), with the operand of R100. -/
def encode (i : Instr) : Command :=
  { cw := (i.engine.bit <<< 8) ||| i.opcode.setWidth 32, opa := i.operand }

/-- The legal command words with E = 0, as R98 lists them. -/
def legalWordsMt32 : List Word32 :=
  [0x001, 0x002, 0x003, 0x004, 0x005, 0x010, 0x011, 0x012, 0x013, 0x014, 0x020, 0x021, 0x022, 0x023, 0x030, 0x031]

/-- The legal command words with E = 1, as R98 lists them. -/
def legalWordsMt64 : List Word32 :=
  [0x101, 0x102, 0x103, 0x104, 0x105, 0x110, 0x111, 0x112, 0x113, 0x114, 0x120, 0x121, 0x122, 0x130, 0x131]

/-- The 31 legal command words of R98. -/
def legalWords : List Word32 := legalWordsMt32 ++ legalWordsMt64

/-- The command whose bits are `w`, bit 0 the least significant bit of `CW`, `OPA` counting on from bit 32; only the low
`nbits` bits of `w` are taken (log entry 15). -/
def tableCommand (nbits w : Nat) : Command :=
  let v := w % 2 ^ nbits
  { cw := BitVec.ofNat 32 v, opa := BitVec.ofNat 64 (v / 2 ^ 32) }

/-- What the decoder reads from the command whose bits are `w`. -/
def decodeTableWord (nbits w : Nat) : Option Instr :=
  match decode (tableCommand nbits w) with
  | .ok i => some i
  | .error _ => none

end Sys2Proof
end

