-- ==== Sys2Proof/Machine/Port.lean ====
section
/-! DEFINITION. The command port and the reset input: what one step takes from the outside world (R77, R90, R103, R252,
R280). -/

namespace Sys2Proof.Machine

/-- What the block does with the next input, and the state it does it from. -/
inductive PortAction where
  /-- No input: nothing changes state between commands (R103). -/
  | idle (s : State)
  /-- The reset input was asserted (R280): the state after reset. -/
  | reset (s : State)
  /-- A command was offered while READY = 0: it is not accepted, and nothing of the block changes (R252). -/
  | notAccepted (s : State)
  /-- An illegal command was accepted (R97): the state after Fault(ILLEGAL). -/
  | illegal (s : State)
  /-- A legal command was accepted: the command, and the state it runs in. -/
  | run (i : Instr) (s : State)
deriving DecidableEq, Repr

/-- Acceptance of an offered command (R90), then R103's check of the command word. -/
def acceptCommand (c : Command) (s : State) : PortAction :=
  if s.ready then
    match decode c with
    | .ok i => .run i (s.capture c)
    | .error _ => .illegal ((s.capture c).raiseFault .illegal)
  else .notAccepted s

/-- What the block does with the next input event. -/
def nextAction (s : State) : PortAction :=
  match s.hostIn with
  | [] => .idle s
  | .rst :: rest => .reset (s.setHostIn rest).assertReset
  | .offer c :: rest => acceptCommand c (s.setHostIn rest)

/-- The state in which a host offers command c next (log entry 7). -/
def State.offerNext (s : State) (c : Command) : State := { s with hostIn := .offer c :: s.hostIn }

end Sys2Proof.Machine
end

