-- ==== Sys2Proof/Machine/Step.lean ====
section
/-! DEFINITION. One step of the machine: one input event (R76, R103, R280). -/

namespace Sys2Proof.Machine

/-- One step. An accepted legal command is one step and runs by its rule (R76, R103); the other events change what
Machine/Port.lean says. -/
def step (s : State) : Host.Outcome State Fault Refusal :=
  match nextAction s with
  | .idle s' => .next s'
  | .reset s' => .next s'
  | .notAccepted s' => .next s'
  | .illegal s' => .next s'
  | .run i s' => exec i s'

/-- s with the command whose bits are w offered at the port next: commands are not stored (R79), the host supplies them
(log entry 7). -/
def State.withFetchWord (s : State) (nbits w : Nat) : State := s.offerNext (tableCommand nbits w)

end Sys2Proof.Machine
end

