-- ==== Sys2Proof/Machine/Assembler.lean ====
section
/-! DEFINITION. The assembler syntax of R100 and the pseudo-instructions of R101: one line of text to the commands a host
offers. The lexical points R100 leaves open are in log entry 14. -/

namespace Sys2Proof.Machine

/-- Why the assembler refuses a line. -/
inductive AsmError where
  /-- The line does not begin with `mt32.` or `mt64.` (R100). -/
  | engine
  /-- The name after the engine is no mnemonic of R93 and no pseudo-instruction of R101. -/
  | mnemonic
  /-- An operand is missing, or one stands where the kind is NONE (R100). -/
  | operandCount
  /-- An operand is no decimal or hexadecimal integer (R100). -/
  | number
  /-- An operand lies outside [-2^63, 2^64) (R100). -/
  | range
  /-- `seed_array` with no key word, or with more than KMAX (R101). -/
  | keyLength
deriving DecidableEq, Repr

/-! ## Operands -/

/-- An operand's 64-bit two's-complement value; values outside [-2^63, 2^64) are refused (R100). -/
def asmOperand (v : Int) : Except AsmError Word64 :=
  if -(2 ^ 63) ≤ v ∧ v < 2 ^ 64 then .ok (BitVec.ofInt 64 v) else .error .range

/-- The value of a digit character in a base up to 16. -/
def digitValue (base : Nat) (c : Char) : Option Nat :=
  let v :=
    if '0' ≤ c ∧ c ≤ '9' then c.toNat - '0'.toNat
    else if 'a' ≤ c ∧ c ≤ 'f' then c.toNat - 'a'.toNat + 10
    else if 'A' ≤ c ∧ c ≤ 'F' then c.toNat - 'A'.toNat + 10
    else base
  if v < base then some v else none

/-- The number that digits spell after the digits already read, whose value is `acc`. -/
def digitsValue (base : Nat) : (acc : Nat) → List Char → Option Nat
  | acc, [] => some acc
  | acc, c :: cs =>
    match digitValue base c with
    | some d => digitsValue base (acc * base + d) cs
    | none => none

/-- A decimal integer with an optional leading `-`, or a hexadecimal integer `0x...` (R100). -/
def parseInteger : List Char → Except AsmError Int
  | [] => .error .number
  | ['-'] => .error .number
  | ['0', 'x'] => .error .number
  | '-' :: ds =>
    match digitsValue 10 0 ds with
    | some n => .ok (-(n : Int))
    | none => .error .number
  | '0' :: 'x' :: ds =>
    match digitsValue 16 0 ds with
    | some n => .ok (n : Int)
    | none => .error .number
  | ds =>
    match digitsValue 10 0 ds with
    | some n => .ok (n : Int)
    | none => .error .number

/-- The text of one operand to its `OPA` value. -/
def parseOperand (cs : List Char) : Except AsmError Word64 :=
  match parseInteger cs with
  | .ok v => asmOperand v
  | .error x => .error x

/-! ## Statements -/

/-- One statement: a command of R93, or a pseudo-instruction of R101. -/
inductive AsmStatement where
  | command (i : Instr)
  | seedArray (e : EngineId) (key : List Word64)
  | seedDefault (e : EngineId)
  | discard (e : EngineId) (k : Word64)
deriving DecidableEq, Repr

/-- The commands a statement stands for (R101). -/
def AsmStatement.expand (kmax : Nat) : AsmStatement → Except AsmError (List Instr)
  | .command i => .ok [i]
  | .seedArray e key =>
    if 1 ≤ key.length ∧ key.length ≤ kmax then .ok (.keyClr e :: key.map (.keyPush e) ++ [.seedArr e])
    else .error .keyLength
  | .seedDefault e => .ok [.seed e 5489]
  | .discard e k => .ok [.warmup e k]

/-- The statements with no operand: kind NONE (R94), and `seed_default` (R101). -/
def plainStatement (e : EngineId) (name : String) : Option AsmStatement :=
  match name with
  | "seed_ent" => some (.command (.seedEnt e))
  | "key_clr" => some (.command (.keyClr e))
  | "seed_arr" => some (.command (.seedArr e))
  | "next" => some (.command (.next e))
  | "next_s" => some (.command (.nextS e))
  | "next_pos" => some (.command (.nextPos e))
  | "next_t32" => some (.command (.nextT32 e))
  | "real1" => some (.command (.real1 e))
  | "real2" => some (.command (.real2 e))
  | "real3" => some (.command (.real3 e))
  | "res53" => some (.command (.res53 e))
  | "warmup_ent" => some (.command (.warmupEnt e))
  | "seed_default" => some (.seedDefault e)
  | _ => none

/-- The statements with one operand (R94, R101). -/
def operandStatement (e : EngineId) (opa : Word64) (name : String) : Option AsmStatement :=
  match name with
  | "seed" => some (.command (.seed e opa))
  | "key_push" => some (.command (.keyPush e opa))
  | "bounded" => some (.command (.bounded e opa))
  | "warmup" => some (.command (.warmup e opa))
  | "discard" => some (.discard e opa)
  | _ => none

/-! ## Lines -/

/-- A blank: a space or a tab. -/
def isBlank (c : Char) : Bool := c = ' ' || c = '\t'

/-- A piece of text without the blanks at its two ends. -/
def trimBlanks (cs : List Char) : List Char := ((cs.dropWhile isBlank).reverse.dropWhile isBlank).reverse

/-- The pieces between the commas of an operand list. -/
def splitCommas : List Char → List (List Char)
  | [] => [[]]
  | ',' :: cs => [] :: splitCommas cs
  | c :: cs =>
    match splitCommas cs with
    | piece :: pieces => (c :: piece) :: pieces
    | [] => [[c]]

/-- `mt32.` or `mt64.`, and the name after it (R100). -/
def splitEngine : List Char → Except AsmError (EngineId × String)
  | 'm' :: 't' :: '3' :: '2' :: '.' :: name => .ok (.mt32, String.ofList name)
  | 'm' :: 't' :: '6' :: '4' :: '.' :: name => .ok (.mt64, String.ofList name)
  | _ => .error .engine

/-- Every operand of a list, or the first error. -/
def parseOperands : List (List Char) → Except AsmError (List Word64)
  | [] => .ok []
  | piece :: pieces =>
    match parseOperand (trimBlanks piece), parseOperands pieces with
    | .ok v, .ok vs => .ok (v :: vs)
    | .error x, _ => .error x
    | _, .error x => .error x

/-- A statement with at least one operand, whose text is given (R100, R101). -/
def parseWithOperands (e : EngineId) (name : String) (operands : List Char) : Except AsmError AsmStatement :=
  if name = "seed_array" then
    match parseOperands (splitCommas operands) with
    | .ok key => .ok (.seedArray e key)
    | .error x => .error x
  else
    match plainStatement e name, operandStatement e 0 name with
    | some _, _ => .error .operandCount
    | none, none => .error .mnemonic
    | none, some _ =>
      match parseOperand operands with
      | .error x => .error x
      | .ok opa =>
        match operandStatement e opa name with
        | some st => .ok st
        | none => .error .mnemonic

/-- A statement with no operand text. `seed_array` without a key word is refused (R101). -/
def parseWithoutOperands (e : EngineId) (name : String) : Except AsmError AsmStatement :=
  if name = "seed_array" then .error .keyLength
  else
    match plainStatement e name, operandStatement e 0 name with
    | some st, _ => .ok st
    | none, some _ => .error .operandCount
    | none, none => .error .mnemonic

/-- One line of source: a statement and a comment from `;` on, either of which may be missing (R100). -/
def parseLine (line : String) : Except AsmError (Option AsmStatement) :=
  let text := trimBlanks (line.toList.takeWhile (· ≠ ';'))
  if text = [] then .ok none
  else
    match splitEngine (text.takeWhile (fun c => !isBlank c)) with
    | .error x => .error x
    | .ok (e, name) =>
      let operands := trimBlanks (text.dropWhile (fun c => !isBlank c))
      match (if operands = [] then parseWithoutOperands e name else parseWithOperands e name operands) with
      | .ok st => .ok (some st)
      | .error x => .error x

/-- The commands one line of source assembles to (R100, R101). -/
def assembleLine (kmax : Nat) (line : String) : Except AsmError (List Command) :=
  match parseLine line with
  | .error x => .error x
  | .ok none => .ok []
  | .ok (some st) =>
    match st.expand kmax with
    | .ok is => .ok (is.map encode)
    | .error x => .error x

end Sys2Proof.Machine
end

