-- ==== Sys2Proof/Machine/Reference.lean ====
section
/-! DEFINITION. The buffer procedures once more, written as the loops of R120, R122, R123, R124 and R160 over buf[i] and
buf[i] <- v. No meaning calls them; statements say that the procedures of Machine/Generator.lean give the same buffers. -/

namespace Sys2Proof.Machine

variable {w : Nat}

/-- `buf[i]` inside a loop of a rule: every index a rule forms lies in the buffer (R71). -/
def loopRead (b : List (BitVec w)) (i : Nat) : BitVec w := b.getD i 0

/-- R120's loop: `buf[0] <- trunc_W(s)`, then for j in 1..N-1 `buf[j] <- C * (buf[j-1] ^ (buf[j-1] >> S)) + j`. -/
def scalarLoop (k : Consts w) (s : Word64) (b : List (BitVec w)) : List (BitVec w) :=
  (List.range' 1 (k.n - 1)).foldl
    (fun b j => b.set j (k.c * (loopRead b (j - 1) ^^^ (loopRead b (j - 1) >>> k.s)) + BitVec.ofNat w j))
    (b.set 0 (s.setWidth w))

/-- The buffer and the two indices of R122's loop. -/
structure LoopState (w : Nat) where
  b : List (BitVec w)
  i : Nat
  j : Nat
deriving DecidableEq, Repr

/-- One step of R122's loop, with the key `KEY[0..L-1]`. -/
def forwardLoopStep (k : Consts w) (key : List (BitVec w)) (t : LoopState w) : LoopState w :=
  let p := loopRead t.b (t.i - 1)
  let b := t.b.set t.i ((loopRead t.b t.i ^^^ ((p ^^^ (p >>> k.s)) * k.c2)) + loopRead key t.j + BitVec.ofNat w t.j)
  let i := t.i + 1
  let j := t.j + 1
  { b := if k.n ≤ i then b.set 0 (loopRead b (k.n - 1)) else b
    i := if k.n ≤ i then 1 else i
    j := if key.length ≤ j then 0 else j }

/-- One step of R123's loop. -/
def reverseLoopStep (k : Consts w) (t : LoopState w) : LoopState w :=
  let p := loopRead t.b (t.i - 1)
  let b := t.b.set t.i ((loopRead t.b t.i ^^^ ((p ^^^ (p >>> k.s)) * k.c3)) - BitVec.ofNat w t.i)
  let i := t.i + 1
  { b := if k.n ≤ i then b.set 0 (loopRead b (k.n - 1)) else b
    i := if k.n ≤ i then 1 else i
    j := t.j }

/-- R122 to R124: ScalarSeed(19650218), max(N, L) forward steps, N-1 reverse steps, `buf[0] <- 1 << (W-1)`. -/
def arrayLoop (k : Consts w) (key b : List (BitVec w)) : List (BitVec w) :=
  let t0 : LoopState w := { b := scalarLoop k seedBase b, i := 1, j := 0 }
  let t1 := (forwardLoopStep k key)^[max k.n key.length] t0
  let t2 := (reverseLoopStep k)^[k.n - 1] t1
  t2.b.set 0 (1#w <<< (w - 1))

/-- One step of R160's sweep at index i. -/
def twistLoopStep (k : Consts w) (b : List (BitVec w)) (i : Nat) : List (BitVec w) :=
  let y := (loopRead b i &&& k.um) ||| (loopRead b ((i + 1) % k.n) &&& k.lm)
  let t := y >>> 1
  let t := if y.getLsbD 0 then t ^^^ k.matrixA else t
  b.set i (loopRead b ((i + k.m) % k.n) ^^^ t)

/-- R160's sweep: for i in 0..N-1, one sequential in-place sweep. -/
def twistLoop (k : Consts w) (b : List (BitVec w)) : List (BitVec w) :=
  (List.range k.n).foldl (twistLoopStep k) b

end Sys2Proof.Machine
end

