-- ==== Sys2Proof/Safety.lean ====
section
/-! DEFINITION. The terms the statements use: the invariant of the machine, the word an extraction takes, the end of a run
(R289), and the states that differ only in what the spec leaves unspecified (R44, R46). -/

namespace Sys2Proof.Machine

/-! ## The invariant -/

/-- What always holds of an engine between commands: `buf` has N words (R31); `remaining` is in [1, N] (R32); `cursor` is in
[0, N] (R33); a primed engine has `cursor + remaining = N + 1`, and an engine that is not has `remaining` = 1 (R35); an
engine that is not seeded is not primed (R44); `KEY` has KMAX words and `KLEN` is at most KMAX (R36). -/
abbrev Engine.Inv {w : Nat} (k : Consts w) (kmax : Nat) (g : Engine w) : Prop :=
  g.buf.length = k.n ∧ 1 ≤ g.remaining ∧ g.remaining ≤ k.n ∧ g.cursor ≤ k.n ∧
  (g.remaining = 1 ∨ g.cursor + g.remaining = k.n + 1) ∧ (g.seeded = false → g.remaining = 1) ∧
  g.key.length = kmax ∧ g.klen ≤ kmax

/-- The values STATUS takes: 0x00000002, and one value for each cause of R250. -/
def statusValues : List Word32 := [0x00000002, 0x00000011, 0x00000021, 0x00000031, 0x00000041, 0x00000051]

/-- What always holds of the port registers: STATUS has one of its six values, and FCMD and FOPA are 0 until a fault is
taken (R38, R39). -/
abbrev State.PortInv (s : State) : Prop :=
  s.status ∈ statusValues ∧ (s.faulted = false → s.fcmd = 0 ∧ s.fopa = 0)

/-- The invariant of the machine. -/
abbrev State.Inv (s : State) : Prop :=
  s.params.wf = true ∧ s.mt32.Inv constsMt32 s.params.kmax ∧ s.mt64.Inv constsMt64 s.params.kmax ∧ s.PortInv

/-! ## The word an extraction takes (R180) -/

/-- `y <- buf[cursor]` of R180, tempered: the word the next extraction on engine e returns. -/
def State.nextWord (s : State) (e : EngineId) : BitVec e.width :=
  temper e (loopRead ((s.engine e).refill e.consts).buf ((s.engine e).refill e.consts).cursor)

/-- The state after one extraction on engine e (R180): `remaining` counted down, the buffer regenerated where that left 0,
`cursor` moved on. -/
def State.afterWord (s : State) (e : EngineId) : State :=
  let g := (s.engine e).refill e.consts
  s.setEngine e { g with cursor := g.cursor + 1 }

/-! ## The end of a run (R252, R289) -/

/-- A run has ended in the first of R289's two ways: the host's last command is issued, and READY = 1. DESIGN CHOICE (log
entry 19): R289 does not say how a reset relates to the end of a run. Here a pending reset input is an input still to come,
so the run has not ended before it is taken, and a run whose last command faulted counts as ended once it is. -/
def State.ended (s : State) : Bool := s.hostIn.isEmpty && s.ready

/-- The second of R289's two ways: FAULTED = 1, which lasts until a reset (R252). This is never a successful end, and RES is
then no result of the run. -/
def State.stuck (s : State) : Bool := s.faulted

/-- Two states whose blocks agree in every item: only the inputs still to come may differ. -/
abbrev State.SameBlock (s t : State) : Prop :=
  t.mt32 = s.mt32 ∧ t.mt64 = s.mt64 ∧ t.res = s.res ∧ t.resValid = s.resValid ∧ t.status = s.status ∧
  t.fcmd = s.fcmd ∧ t.fopa = s.fopa ∧ t.cw = s.cw ∧ t.opa = s.opa ∧ t.params = s.params

/-! ## Faults (R250, R251) -/

/-- t is the state after s took a fault of cause c (R251): STATUS records it, FCMD and FOPA record the captured command, and
the engines, RES and everything else of the block are as in s. -/
abbrev State.FaultTaken (s : State) (c : FaultCode) (t : State) : Prop :=
  t.faulted = true ∧ t.ready = false ∧ t.fcode = c.fcode ∧ t.fcmd = s.cw ∧ t.fopa = s.opa ∧
  t.mt32 = s.mt32 ∧ t.mt64 = s.mt64 ∧ t.res = s.res ∧ t.resValid = s.resValid ∧
  t.cw = s.cw ∧ t.opa = s.opa ∧ t.params = s.params ∧ t.hostIn = s.hostIn

/-- The cause a legal command reports, as the table of R250 gives the conditions. -/
def State.cause (s : State) : Instr → Option FaultCode
  | .seed _ _ => none
  | .seedEnt _ => if s.entropyAnswer = .fail then some .entropy else none
  | .keyClr _ => none
  | .keyPush e _ => if (s.engine e).klen = s.params.kmax then some .keyFull else none
  | .seedArr e => if (s.engine e).klen = 0 then some .keyEmpty else none
  | .next _ => none
  | .nextS _ => none
  | .nextPos _ => none
  | .nextT32 _ => none
  | .bounded e opa => if boundOperand e.width opa ≤ 0 then some .bound else none
  | .real1 _ => none
  | .real2 _ => none
  | .real3 _ => none
  | .res53 _ => none
  | .warmup _ _ => none
  | .warmupEnt _ => if s.entropyAnswer = .fail then some .entropy else none

end Sys2Proof.Machine

namespace Sys2Proof

/-! ## Kinds of commands -/

/-- The commands that produce a value and write RES (R37, R93). -/
def Instr.writesRes : Instr → Bool
  | .seed _ _ => false
  | .seedEnt _ => false
  | .keyClr _ => false
  | .keyPush _ _ => false
  | .seedArr _ => false
  | .next _ => true
  | .nextS _ => true
  | .nextPos _ => true
  | .nextT32 _ => true
  | .bounded _ _ => true
  | .real1 _ => true
  | .real2 _ => true
  | .real3 _ => true
  | .res53 _ => true
  | .warmup _ _ => false
  | .warmupEnt _ => false

/-- The commands that extract at least one word when they complete (R186): those that write RES, WARMUP with a count other
than 0, and WARMUP_ENT, whose count is a prime (R208, R209). -/
def Instr.extracts : Instr → Bool
  | .seed _ _ => false
  | .seedEnt _ => false
  | .keyClr _ => false
  | .keyPush _ _ => false
  | .seedArr _ => false
  | .next _ => true
  | .nextS _ => true
  | .nextPos _ => true
  | .nextT32 _ => true
  | .bounded _ _ => true
  | .real1 _ => true
  | .real2 _ => true
  | .real3 _ => true
  | .res53 _ => true
  | .warmup _ count => decide (count ≠ 0)
  | .warmupEnt _ => true

/-- Of the two command words of one OP, the one whose E bit selects engine e (R91, R92). -/
def EngineId.word (e : EngineId) (mt32Word mt64Word : Word32) : Word32 :=
  match e with
  | .mt32 => mt32Word
  | .mt64 => mt64Word

/-- The commands that write the key store (R36). -/
def Instr.writesKey : Instr → Bool
  | .seed _ _ => false
  | .seedEnt _ => false
  | .keyClr _ => true
  | .keyPush _ _ => true
  | .seedArr _ => false
  | .next _ => false
  | .nextS _ => false
  | .nextPos _ => false
  | .nextT32 _ => false
  | .bounded _ _ => false
  | .real1 _ => false
  | .real2 _ => false
  | .real3 _ => false
  | .res53 _ => false
  | .warmup _ _ => false
  | .warmupEnt _ => false

end Sys2Proof

namespace Sys2Proof.Machine

/-! ## Reals (R14, R200) -/

/-- The exact value of a finite binary64 encoding with sign 0. -/
def realValue (f : Word64) : ℚ := ((binaryValue f).num : ℚ) / ((binaryValue f).den : ℚ)

/-- A finite encoding with sign 0: at most the largest finite binary64 value. -/
abbrev FiniteReal (f : Word64) : Prop := f.toNat < 0x7FF0000000000000

/-- The encoding f rounds the exact value q to nearest: no finite encoding lies nearer, and of two that lie equally near f
is the one whose last place is 0 (R14). -/
abbrev RoundsTo (q : ℚ) (f : Word64) : Prop :=
  ∀ h : Word64, FiniteReal h →
    |realValue f - q| ≤ |realValue h - q| ∧
    (|realValue f - q| = |realValue h - q| → h ≠ f → f.getLsbD 0 = false)

/-! ## States that differ only in unspecified items (R36, R37, R44, R46) -/

/-- Two engines that agree in everything a rule reads: `buf` may differ while the engine is not seeded, `cursor` while
`remaining` is 1, and the words of `KEY` from `KLEN` on. -/
abbrev Engine.Agree {w : Nat} (g h : Engine w) : Prop :=
  h.seeded = g.seeded ∧ h.remaining = g.remaining ∧ h.klen = g.klen ∧ h.key.length = g.key.length ∧
  h.key.take g.klen = g.key.take g.klen ∧ h.buf.length = g.buf.length ∧
  (g.seeded = true → h.buf = g.buf) ∧ (g.remaining ≠ 1 → h.cursor = g.cursor)

/-- Two states that agree in everything a host can read or a rule reads: RES may differ while it has no value (R37). The
captured CW and OPA are read by no later rule (R40) and may differ. -/
abbrev State.Agree (s t : State) : Prop :=
  s.mt32.Agree t.mt32 ∧ s.mt64.Agree t.mt64 ∧ t.hostRes = s.hostRes ∧ t.resValid = s.resValid ∧
  t.status = s.status ∧ t.fcmd = s.fcmd ∧ t.fopa = s.fopa ∧ t.params = s.params ∧ t.hostIn = s.hostIn ∧
  t.entropyIn = s.entropyIn ∧ t.entropyDraws = s.entropyDraws

end Sys2Proof.Machine
end

