-- ==== Sys2Proof/Certificates/Slice0/Obligations.lean ====
section
/-! DEFINITION. The statements for the provers. Each docstring names the rule of spec/ the statement formalises. -/

open Sys2Proof Sys2Proof.Machine

/-! ## Reset, the port and the step -/

/-- R45: the port registers after reset. -/
def Obligations.ResetPortRegisters : Prop :=
  State.reset.hostStatus = 0x00000002 ∧ State.reset.ready = true ∧ State.reset.faulted = false ∧
  State.reset.fcode = 0 ∧ State.reset.hostFcmd = 0 ∧ State.reset.hostFopa = 0 ∧ State.reset.hostRes = none

/-- R44: what each engine holds after reset, in the items R44 gives a value. -/
def Obligations.ResetEngines : Prop :=
  ∀ e : EngineId, (State.reset.engine e).seeded = false ∧ (State.reset.engine e).remaining = 1 ∧
    (State.reset.engine e).klen = 0

/-- R280: the reset input, in any state, puts every item with a stated reset value at that value; the parameters and the
inputs still to come are not the block's, and the model leaves them (its choice, log entry 16). -/
def Obligations.ResetInputRestoresResetValues : Prop :=
  ∀ (s : State) (rest : List HostInput), s.hostIn = .rst :: rest →
    ∃ t, step s = .next t ∧
      (∀ e : EngineId, (t.engine e).seeded = false ∧ (t.engine e).remaining = 1 ∧ (t.engine e).klen = 0) ∧
      t.hostStatus = 0x00000002 ∧ t.hostFcmd = 0 ∧ t.hostFopa = 0 ∧ t.hostRes = none ∧
      t.params = s.params ∧ t.hostIn = rest

/-- The invariant holds after reset. -/
def Obligations.ResetSatisfiesInvariant : Prop := State.reset.Inv

/-- Every step keeps the invariant (R31, R32, R33, R35, R36, R38, R39). -/
def Obligations.StepKeepsInvariant : Prop :=
  ∀ s s' : State, s.Inv → step s = .next s' → s'.Inv

/-- R71, R250: from a state that satisfies the invariant no step stops; no index lies outside its array. -/
def Obligations.StepAlwaysAnswersNext : Prop :=
  ∀ s : State, s.Inv → ∃ s', step s = .next s'

/-- R103: a command that is offered while READY = 1 and decodes to i runs as i, in the state that has captured it. The
list of inputs is the model's choice (log entry 4). -/
def Obligations.StepRunsDecodedCommand : Prop :=
  ∀ (s : State) (c : Command) (rest : List HostInput) (i : Instr),
    s.hostIn = .offer c :: rest → s.ready = true → decode c = .ok i →
    step s = exec i { s with hostIn := rest, cw := c.cw, opa := c.opa }

/-- R97: an illegal command word, by each of its three clauses, takes Fault(ILLEGAL). -/
def Obligations.IllegalCommandWordFaults : Prop :=
  ∀ (s : State) (c : Command) (rest : List HostInput),
    s.hostIn = .offer c :: rest → s.ready = true →
    (c.cw.extractLsb' 0 8 ∉ ([0x01, 0x02, 0x03, 0x04, 0x05, 0x10, 0x11, 0x12, 0x13, 0x14, 0x20, 0x21, 0x22, 0x23,
        0x30, 0x31] : List (BitVec 8)) ∨
      c.cw.extractLsb' 9 23 ≠ 0 ∨
      (c.cw.extractLsb' 0 8 = 0x23 ∧ c.cw.getLsbD 8 = true)) →
    ∃ t, step s = .next t ∧
      State.FaultTaken { s with hostIn := rest, cw := c.cw, opa := c.opa } .illegal t

/-- R90, R252, R103: with no input, and for a command offered while READY = 0, nothing of the block changes. That such an
offer is dropped from the inputs is the model's choice (log entry 11). -/
def Obligations.NothingChangesWithoutAcceptance : Prop :=
  (∀ s : State, s.hostIn = [] → step s = .next s) ∧
  (∀ (s : State) (c : Command) (rest : List HostInput), s.hostIn = .offer c :: rest → s.ready = false →
    step s = .next { s with hostIn := rest })

/-- R252: while the block is faulted, no host command changes any state, however many are offered. -/
def Obligations.FaultedBlockIsQuiescent : Prop :=
  ∀ (n : Nat) (s t : State), s.Inv → s.faulted = true → HostInput.rst ∉ s.hostIn →
    core.run n s = .next t → t.faulted = true ∧ t.ready = false ∧ s.SameBlock t

/-! ## Faults -/

/-- R251: fault entry writes STATUS, FCMD and FOPA and nothing else, and a legal command that takes a fault does exactly
that: no part of it takes effect. -/
def Obligations.FaultEntryChangesOnlyTheRecord : Prop :=
  (∀ (s : State) (c : FaultCode), s.FaultTaken c (s.raiseFault c)) ∧
  (∀ (i : Instr) (s t : State), i.wellFormed = true → s.faulted = false → exec i s = .next t → t.faulted = true →
    ∃ c, s.cause i = some c ∧ s.FaultTaken c t)

/-- R250: a legal command faults exactly under the conditions of the table, with the table's code, and an illegal command
word with code 1. -/
def Obligations.FaultCausesAreTheTable : Prop :=
  (∀ (i : Instr) (s : State), i.wellFormed = true → s.Inv → s.faulted = false →
    ∃ t, exec i s = .next t ∧ t.faulted = (s.cause i).isSome ∧
      t.fcode = (match i with
        | .bounded e opa => if (opa.setWidth e.width).toInt ≤ 0 then 2 else 0
        | .seedEnt _ => if s.entropyAnswer = .fail then 3 else 0
        | .warmupEnt _ => if s.entropyAnswer = .fail then 3 else 0
        | .seedArr e => if (s.engine e).klen = 0 then 4 else 0
        | .keyPush e _ => if (s.engine e).klen = s.params.kmax then 5 else 0
        | _ => 0)) ∧
  (∀ (s : State) (c : Command) (rest : List HostInput) (x : DecodeError),
    s.hostIn = .offer c :: rest → s.ready = true → decode c = .error x →
    ∃ t, step s = .next t ∧ t.faulted = true ∧ t.fcode = 1)

/-! ## Encoding -/

/-- R91, R93, R97: decoding an encoded command gives it back exactly when the command exists. -/
def Obligations.DecodeOfEncode : Prop :=
  ∀ i : Instr, decode (encode i) = .ok i ↔ i.wellFormed = true

/-- R91, R93, R99: a command that decodes is well-formed, its command word is the one the encoder gives, and so is its
operand where the operand kind is not NONE. -/
def Obligations.EncodeOfDecode : Prop :=
  ∀ (c : Command) (i : Instr), decode c = .ok i →
    i.wellFormed = true ∧ (encode i).cw = c.cw ∧ (i.operandKind ≠ .none → (encode i).opa = c.opa)

/-- R98: the legal command words are exactly the 31 listed. -/
def Obligations.LegalCommandWordsAreThirtyOne : Prop :=
  (∀ (cw : Word32) (opa : Word64), (∃ i, decode { cw := cw, opa := opa } = .ok i) ↔ cw ∈ legalWords) ∧
  legalWords.length = 31 ∧ legalWords.Nodup

/-- Words written out from R91 and R93, one of each family, decode to the commands they stand for. -/
def Obligations.SampleWordsDecode : Prop :=
  decode { cw := 0b00000000000000000000000000000001, opa := 5489 } = .ok (.seed .mt32 5489) ∧
  decode { cw := 0b00000000000000000000000100000100, opa := 7 } = .ok (.keyPush .mt64 7) ∧
  decode { cw := 0b00000000000000000000000100010001, opa := 0 } = .ok (.nextS .mt64) ∧
  decode { cw := 0x00000114, opa := 0x3E8 } = .ok (.bounded .mt64 1000) ∧
  decode { cw := 0b00000000000000000000000000100011, opa := 0 } = .ok (.res53 .mt32) ∧
  decode { cw := 0b00000000000000000000000000110000, opa := 3 } = .ok (.warmup .mt32 3) ∧
  decode { cw := 0x00000123, opa := 0 } = .error .res53OnMt64 ∧
  decode { cw := 0x00000214, opa := 0 } = .error .reservedBits ∧
  decode { cw := 0x00000006, opa := 0 } = .error .undefinedOp ∧
  decode { cw := 0x00000000, opa := 0 } = .error .undefinedOp

/-- R96: a command of operand kind NONE decodes and runs the same for every OPA; only the captured operand differs, and the
FOPA that records it on a fault. -/
def Obligations.KindNoneIgnoresOperand : Prop :=
  ∀ (s : State) (cw : Word32) (a b : Word64) (i : Instr), s.Inv → s.faulted = false →
    decode { cw := cw, opa := a } = .ok i → i.operandKind = .none →
    decode { cw := cw, opa := b } = .ok i ∧
    ∃ t, exec i (s.capture { cw := cw, opa := a }) = .next t ∧
      exec i (s.capture { cw := cw, opa := b }) =
        .next { t with opa := b, fopa := if t.faulted then b else t.fopa }

/-! ## Seeding -/

/-- R126, R120: SEED fills the buffer by R120's loop, sets `seeded` and `remaining` = 1, and changes nothing else. -/
def Obligations.SeedRunsScalarSeedLoop : Prop :=
  ∀ (e : EngineId) (opa : Word64), decode { cw := e.word 0x001 0x101, opa := opa } = .ok (.seed e opa) ∧
    ∀ s : State, (s.engine e).buf.length = e.consts.n →
      exec (.seed e opa) s = .next (s.setEngine e
        { s.engine e with buf := scalarLoop e.consts opa (s.engine e).buf, seeded := true, remaining := 1 })

/-- R121: ScalarSeed never fails and depends only on `trunc_W(s)`; on MT64 distinct seeds give distinct `buf[0]`. -/
def Obligations.SeedDependsOnTruncatedSeed : Prop :=
  (∀ (e : EngineId) (a b : Word64) (s : State), a.setWidth e.width = b.setWidth e.width →
    ∃ t, exec (.seed e a) s = .next t ∧ exec (.seed e b) s = .next t) ∧
  (∀ (a b : Word64) (s t u : State), a ≠ b → exec (.seed .mt64 a) s = .next t → exec (.seed .mt64 b) s = .next u →
    t.mt64.buf.getD 0 0 ≠ u.mt64.buf.getD 0 0)

/-- R127: SEED_ENT seeds with the value the entropy source delivers, whatever it is, and takes Fault(ENTROPY) when it
fails. The answer is used up, which only the model's own fields record (log entry 5). -/
def Obligations.SeedEntropySeedsOrFaults : Prop :=
  ∀ (e : EngineId) (s : State), (∀ opa, decode { cw := e.word 0x002 0x102, opa := opa } = .ok (.seedEnt e)) ∧
    (∀ r, s.entropyAnswer = .data r → (s.engine e).buf.length = e.consts.n →
      exec (.seedEnt e) s = .next (s.afterEntropy.setEngine e
        { s.engine e with buf := scalarLoop e.consts r (s.engine e).buf, seeded := true, remaining := 1 })) ∧
    (s.entropyAnswer = .fail → ∃ t, exec (.seedEnt e) s = .next t ∧ s.FaultTaken .entropy t)

/-- R128: KEY_CLR sets `KLEN` to 0 and changes nothing else. -/
def Obligations.KeyClearSetsLengthZero : Prop :=
  ∀ (e : EngineId) (s : State), (∀ opa, decode { cw := e.word 0x003 0x103, opa := opa } = .ok (.keyClr e)) ∧
    exec (.keyClr e) s = .next (s.setEngine e { s.engine e with klen := 0 })

/-- R129: KEY_PUSH writes `trunc_W(OPA)` at `KLEN` and counts it, and takes Fault(KEY_FULL) when the store is full. -/
def Obligations.KeyPushAppendsOrFaults : Prop :=
  ∀ (e : EngineId) (opa : Word64) (s : State), decode { cw := e.word 0x004 0x104, opa := opa } = .ok (.keyPush e opa) ∧
    ((s.engine e).key.length = s.params.kmax → (s.engine e).klen < s.params.kmax →
      exec (.keyPush e opa) s = .next (s.setEngine e
        { s.engine e with key := (s.engine e).key.set (s.engine e).klen (opa.setWidth e.width)
                          klen := (s.engine e).klen + 1 })) ∧
    ((s.engine e).klen = s.params.kmax → ∃ t, exec (.keyPush e opa) s = .next t ∧ s.FaultTaken .keyFull t)

/-- R130, R122, R123, R124: SEED_ARR runs ArraySeed's two loops on the key, and takes Fault(KEY_EMPTY) when there is none. -/
def Obligations.SeedArrayRunsMixingLoops : Prop :=
  ∀ (e : EngineId) (s : State), (∀ opa, decode { cw := e.word 0x005 0x105, opa := opa } = .ok (.seedArr e)) ∧
    ((s.engine e).buf.length = e.consts.n → (s.engine e).klen ≤ (s.engine e).key.length → (s.engine e).klen ≠ 0 →
      exec (.seedArr e) s = .next (s.setEngine e
        { s.engine e with
          buf := arrayLoop e.consts ((s.engine e).key.take (s.engine e).klen) (s.engine e).buf
          seeded := true, remaining := 1 })) ∧
    ((s.engine e).klen = 0 → ∃ t, exec (.seedArr e) s = .next t ∧ s.FaultTaken .keyEmpty t)

/-- R131: no seeding command writes `cursor` or RES, and each one that completes leaves `remaining` = 1. -/
def Obligations.SeedingOnlyPrimes : Prop :=
  ∀ (i : Instr) (e : EngineId) (s t : State),
    (i = .seedEnt e ∨ i = .seedArr e ∨ ∃ opa, i = .seed e opa) → exec i s = .next t →
    (t.engine e).cursor = (s.engine e).cursor ∧ t.res = s.res ∧ t.resValid = s.resValid ∧
    (s.cause i = none → (t.engine e).remaining = 1 ∧ (t.engine e).seeded = true)

/-- R132: two SEED commands with the same operand, or two SEED_ARR commands with equal keys, leave the same `buf`,
`remaining` and `seeded`, whatever came before, and the words extracted after them are the same. -/
def Obligations.SeedingIsReproducible : Prop :=
  ∀ (e : EngineId) (s s' t t' : State), s.Inv → s'.Inv →
    ((∃ opa, exec (.seed e opa) s = .next t ∧ exec (.seed e opa) s' = .next t') ∨
     (exec (.seedArr e) s = .next t ∧ exec (.seedArr e) s' = .next t' ∧ (s.engine e).klen ≠ 0 ∧
      (s'.engine e).key.take (s'.engine e).klen = (s.engine e).key.take (s.engine e).klen)) →
    (t'.engine e).buf = (t.engine e).buf ∧ (t'.engine e).remaining = (t.engine e).remaining ∧
    (t'.engine e).seeded = (t.engine e).seeded ∧
    ∀ j : Nat, ((fun u : State => u.afterWord e)^[j] t').nextWord e = ((fun u : State => u.afterWord e)^[j] t).nextWord e

/-- R133: after a seeding command the words the next twist reads, bits [W-1:31] of `buf[0]` and all of `buf[1..N-1]`, are not
all zero. -/
def Obligations.SeededBufferIsNotZero : Prop :=
  ∀ (i : Instr) (e : EngineId) (s t : State),
    (i = .seedEnt e ∨ i = .seedArr e ∨ ∃ opa, i = .seed e opa) → s.cause i = none → exec i s = .next t →
    ((t.engine e).buf.getD 0 0) >>> 31 ≠ 0 ∨ ∃ j, 1 ≤ j ∧ j < e.consts.n ∧ (t.engine e).buf.getD j 0 ≠ 0

/-! ## Regeneration -/

/-- R160: Regenerate applies the default seed to an engine that is not seeded, runs the sequential in-place sweep, and sets
`remaining` = N and `cursor` = 0. -/
def Obligations.RegenerateRunsInPlaceSweep : Prop :=
  ∀ (e : EngineId) (g : Engine e.width), g.buf.length = e.consts.n →
    g.regenerate e.consts =
      { g with
        buf := twistLoop e.consts (if g.seeded then g.buf else scalarLoop e.consts 5489 g.buf)
        seeded := true, remaining := e.consts.n, cursor := 0 }

/-- R163: which words of a sweep are old and which are new: the taps below N-M are old, the taps from N-M on are new words
of this sweep, and the last step reads the new `buf[0]`. -/
def Obligations.SweepReadsOldThenNewWords : Prop :=
  ∀ (e : EngineId) (b : List (BitVec e.width)), b.length = e.consts.n →
    (∀ i, i < e.consts.n - e.consts.m → (twistLoop e.consts b).getD i 0 =
      twistWord e.consts (b.getD i 0) (b.getD (i + 1) 0) (b.getD (i + e.consts.m) 0)) ∧
    (∀ i, e.consts.n - e.consts.m ≤ i → i < e.consts.n - 1 → (twistLoop e.consts b).getD i 0 =
      twistWord e.consts (b.getD i 0) (b.getD (i + 1) 0)
        ((twistLoop e.consts b).getD (i + e.consts.m - e.consts.n) 0)) ∧
    (twistLoop e.consts b).getD (e.consts.n - 1) 0 =
      twistWord e.consts (b.getD (e.consts.n - 1) 0) ((twistLoop e.consts b).getD 0 0)
        ((twistLoop e.consts b).getD (e.consts.m - 1) 0)

/-- R6, R161, R162: the parameters of the two engines, the masks with UM = ~LM, and the twist matrix constant. -/
def Obligations.EngineConstants : Prop :=
  EngineId.mt32.width = 32 ∧ EngineId.mt64.width = 64 ∧ EngineId.mt32.consts.n = 624 ∧ EngineId.mt64.consts.n = 312 ∧
  EngineId.mt32.consts.m = 397 ∧ EngineId.mt64.consts.m = 156 ∧
  EngineId.mt32.consts.c = 1812433253#32 ∧ EngineId.mt64.consts.c = 6364136223846793005#64 ∧
  EngineId.mt32.consts.s = 30 ∧ EngineId.mt64.consts.s = 62 ∧
  EngineId.mt32.consts.c2 = 1664525#32 ∧ EngineId.mt64.consts.c2 = 3935559000370003845#64 ∧
  EngineId.mt32.consts.c3 = 1566083941#32 ∧ EngineId.mt64.consts.c3 = 2862933555777941757#64 ∧
  seedBase = 19650218 ∧ seedDefault = 5489 ∧
  EngineId.mt32.consts.um = 0x80000000#32 ∧ EngineId.mt32.consts.lm = 0x7FFFFFFF#32 ∧
  EngineId.mt64.consts.um = 0xFFFFFFFF80000000#64 ∧ EngineId.mt64.consts.lm = 0x000000007FFFFFFF#64 ∧
  EngineId.mt32.consts.matrixA = 0x9908B0DF#32 ∧ EngineId.mt64.consts.matrixA = 0xB5026F5AA96619E9#64 ∧
  ∀ e : EngineId, e.consts.um = ~~~e.consts.lm

/-- R167: the all-zero buffer is a fixed point of the sweep, and the sweep never reads bits [30:0] of the old `buf[0]`. -/
def Obligations.SweepZeroFixedPoint : Prop :=
  ∀ e : EngineId,
    twistWords e.consts (List.replicate e.consts.n 0) = List.replicate e.consts.n 0 ∧
    ∀ (b : List (BitVec e.width)) (x : BitVec e.width), b.length = e.consts.n →
      x >>> 31 = (b.getD 0 0) >>> 31 → twistWords e.consts (b.set 0 x) = twistWords e.consts b

/-- R164: an engine regenerates only when the decrement of `remaining` leaves 0: the extractions before that one leave `buf`
as it is, and move `remaining` down and `cursor` up by one each. -/
def Obligations.NoRegenerationBeforeRemainingIsSpent : Prop :=
  ∀ (e : EngineId) (s : State) (j : Nat), s.Inv → j < (s.engine e).remaining →
    ((fun u : State => u.afterWord e)^[j] s).engine e =
      { s.engine e with remaining := (s.engine e).remaining - j, cursor := (s.engine e).cursor + j }

/-- R166, R208, R209: a command that extracts, WARMUP with a count other than 0 and WARMUP_ENT among them, answers on an
engine that is not seeded what it would answer after SEED 5489. -/
def Obligations.UnseededExtractsAsSeed5489 : Prop :=
  ∀ (i : Instr) (s u : State), i.extracts = true → i.wellFormed = true → s.Inv → s.cause i = none →
    (s.engine i.engine).seeded = false → exec (.seed i.engine 5489) s = .next u →
    ∃ t, exec i s = .next t ∧ exec i u = .next t

/-! ## Extraction -/

/-- R180, R183: NEXT decrements `remaining`; if that leaves 0 the engine regenerates and the word is its first new word, else
it is the word under `cursor`; RES is the tempered word, zero-extended; nothing else changes. -/
def Obligations.NextReturnsTemperedWord : Prop :=
  ∀ (e : EngineId) (s : State), (∀ opa, decode { cw := e.word 0x010 0x110, opa := opa } = .ok (.next e)) ∧
    (s.Inv → 2 ≤ (s.engine e).remaining →
      exec (.next e) s = .next { (s.setEngine e
          { s.engine e with remaining := (s.engine e).remaining - 1, cursor := (s.engine e).cursor + 1 }) with
        res := (temper e ((s.engine e).buf.getD (s.engine e).cursor 0)).setWidth 64, resValid := true }) ∧
    (s.Inv → (s.engine e).remaining = 1 →
      exec (.next e) s = .next { (s.setEngine e
          { (s.engine e).regenerate e.consts with cursor := 1 }) with
        res := (temper e (((s.engine e).regenerate e.consts).buf.getD 0 0)).setWidth 64, resValid := true })

/-- R181, R182: the tempering pipelines, and the values they are worked out for. -/
def Obligations.TemperingPipelines : Prop :=
  (∀ y : BitVec 32,
    let y1 := y ^^^ (y >>> 11)
    let y2 := y1 ^^^ ((y1 <<< 7) &&& 0x9D2C5680)
    let y3 := y2 ^^^ ((y2 <<< 15) &&& 0xEFC60000)
    temper .mt32 y = y3 ^^^ (y3 >>> 18)) ∧
  (∀ y : BitVec 64,
    let y1 := y ^^^ ((y >>> 29) &&& 0x5555555555555555)
    let y2 := y1 ^^^ ((y1 <<< 17) &&& 0x71D67FFFEDA60000)
    let y3 := y2 ^^^ ((y2 <<< 37) &&& 0xFFF7EEE000000000)
    temper .mt64 y = y3 ^^^ (y3 >>> 43)) ∧
  temper .mt32 0#32 = 0#32 ∧ temper .mt32 1#32 = 0x00400091#32 ∧
  temper .mt32 0xFFFFFFFF#32 = 0x6FE01BF8#32 ∧ temper .mt32 0x80000000#32 = 0x88102204#32 ∧
  temper .mt64 0#64 = 0#64 ∧ temper .mt64 1#64 = 0x0040002000020801#64 ∧
  temper .mt64 0xFFFFFFFFFFFFFFFF#64 = 0x7BFEEEEFEFA1D577#64 ∧
  temper .mt64 0x8000000000000000#64 = 0x8000000400100000#64

/-- R184: NEXT_S returns the word read as two's complement, sign-extended. -/
def Obligations.NextSignedReturnsSignedWord : Prop :=
  ∀ (e : EngineId) (s : State), (∀ opa, decode { cw := e.word 0x011 0x111, opa := opa } = .ok (.nextS e)) ∧ (s.Inv →
    ∃ v : Word64, exec (.nextS e) s = .next { s.afterWord e with res := v, resValid := true } ∧
      v.toInt = (s.nextWord e).toInt)

/-- R185: NEXT_T32 returns all of an MT32 word, and of an MT64 word the half that `TRUNC_SEL` names. -/
def Obligations.NextTruncatedReturnsHalf : Prop :=
  ∀ (e : EngineId) (s : State), (∀ opa, decode { cw := e.word 0x013 0x113, opa := opa } = .ok (.nextT32 e)) ∧ (s.Inv →
    ∃ v : Word64, exec (.nextT32 e) s = .next { s.afterWord e with res := v, resValid := true } ∧
      v.toNat = (match e, s.params.truncSel with
        | .mt32, _ => (s.nextWord e).toNat
        | .mt64, .low => (s.nextWord e).toNat % 2 ^ 32
        | .mt64, .high => (s.nextWord e).toNat / 2 ^ 32))

/-- R201: NEXT_POS drops the top bit of the word and keeps bits [W-2:0] in place. -/
def Obligations.NextPositiveMasksSignBit : Prop :=
  ∀ (e : EngineId) (s : State), (∀ opa, decode { cw := e.word 0x012 0x112, opa := opa } = .ok (.nextPos e)) ∧ (s.Inv →
    ∃ v : Word64, exec (.nextPos e) s = .next { s.afterWord e with res := v, resValid := true } ∧
      v.toNat = (s.nextWord e).toNat % 2 ^ (e.width - 1))

/-- R202: BOUNDED with n > 0 returns the word modulo n, and with n <= 0 takes Fault(BOUND) before any word is consumed. -/
def Obligations.BoundedReturnsRemainderOrFaults : Prop :=
  ∀ (e : EngineId) (opa : Word64) (s : State), decode { cw := e.word 0x014 0x114, opa := opa } = .ok (.bounded e opa) ∧
    (s.Inv → 0 < (opa.setWidth e.width).toInt →
      ∃ v : Word64, exec (.bounded e opa) s = .next { s.afterWord e with res := v, resValid := true } ∧
        (v.toNat : Int) = ((s.nextWord e).toNat : Int) % (opa.setWidth e.width).toInt) ∧
    ((opa.setWidth e.width).toInt ≤ 0 → ∃ t, exec (.bounded e opa) s = .next t ∧ s.FaultTaken .bound t)

/-! ## Reals -/

/-- R14: fp is exact for every integer below 2^53, and fadd, fmul and fdiv round the exact result to nearest, ties to even,
wherever the result is finite. The operands are finite with sign 0 (log entry 9). -/
def Obligations.ArithmeticRoundsToNearestEven : Prop :=
  (∀ v : Nat, v < 2 ^ 53 → FiniteReal (fp v) ∧ realValue (fp v) = v) ∧
  ∀ x y : Word64, FiniteReal x → FiniteReal y →
    (FiniteReal (fadd x y) → RoundsTo (realValue x + realValue y) (fadd x y)) ∧
    (FiniteReal (fmul x y) → RoundsTo (realValue x * realValue y) (fmul x y)) ∧
    (realValue y ≠ 0 → FiniteReal (fdiv x y) → RoundsTo (realValue x / realValue y) (fdiv x y))

/-- R203: REAL1 divides the converted word by D, or multiplies it by the rounded reciprocal of D, as `REAL1_MODE` says.
Both operands are finite encodings with sign 0. -/
def Obligations.Real1DividesByDenominator : Prop :=
  ∀ (e : EngineId) (s : State), (∀ opa, decode { cw := e.word 0x020 0x120, opa := opa } = .ok (.real1 e)) ∧ (s.Inv →
    ∃ x d : Word64,
      FiniteReal x ∧ FiniteReal d ∧
      realValue x = (match e with
        | .mt32 => ((s.nextWord e).toNat : ℚ)
        | .mt64 => (((s.nextWord e).toNat / 2 ^ 11 : Nat) : ℚ)) ∧
      realValue d = (match e with | .mt32 => 2 ^ 32 - 1 | .mt64 => 2 ^ 53 - 1) ∧
      exec (.real1 e) s = .next { s.afterWord e with
        res := (match s.params.real1Mode with
          | .quotient => fdiv x d
          | .reciprocal => fmul x (fdiv 0x3FF0000000000000 d))
        resValid := true })

/-- R204: REAL2 is the word over 2^32 on MT32 and the word's top 53 bits over 2^53 on MT64, exactly. -/
def Obligations.Real2IsExactQuotient : Prop :=
  ∀ (e : EngineId) (s : State), (∀ opa, decode { cw := e.word 0x021 0x121, opa := opa } = .ok (.real2 e)) ∧ (s.Inv →
    ∃ v : Word64, exec (.real2 e) s = .next { s.afterWord e with res := v, resValid := true } ∧ FiniteReal v ∧
      realValue v = (match e with
        | .mt32 => ((s.nextWord e).toNat : ℚ) / 2 ^ 32
        | .mt64 => (((s.nextWord e).toNat / 2 ^ 11 : Nat) : ℚ) / 2 ^ 53))

/-- R205: REAL3 is the word plus one half over 2^32 on MT32, and the word's top 52 bits plus one half over 2^52 on MT64,
exactly. -/
def Obligations.Real3IsExactQuotient : Prop :=
  ∀ (e : EngineId) (s : State), (∀ opa, decode { cw := e.word 0x022 0x122, opa := opa } = .ok (.real3 e)) ∧ (s.Inv →
    ∃ v : Word64, exec (.real3 e) s = .next { s.afterWord e with res := v, resValid := true } ∧ FiniteReal v ∧
      realValue v = (match e with
        | .mt32 => (((s.nextWord e).toNat : ℚ) + 1 / 2) / 2 ^ 32
        | .mt64 => ((((s.nextWord e).toNat / 2 ^ 12 : Nat) : ℚ) + 1 / 2) / 2 ^ 52))

/-- R206: RES53 takes two words, the first supplying the high 27 bits and the second the low 26, over 2^53, exactly; with
E = 1 the command word is illegal (R97 (c)). -/
def Obligations.Res53CombinesTwoWords : Prop :=
  ∀ s : State, (∀ opa, decode { cw := 0x023, opa := opa } = .ok (.res53 .mt32) ∧
      decode { cw := 0x123, opa := opa } = .error .res53OnMt64) ∧
    (s.Inv → ∃ v : Word64,
      exec (.res53 .mt32) s = .next { (s.afterWord .mt32).afterWord .mt32 with res := v, resValid := true } ∧
      FiniteReal v ∧
      realValue v = (((s.nextWord .mt32).toNat / 2 ^ 5 * 2 ^ 26 +
        ((s.afterWord .mt32).nextWord .mt32).toNat / 2 ^ 6 : Nat) : ℚ) / 2 ^ 53)

/-- R207: the range laws, for every word of each engine and both modes of REAL1, with the two ends REAL1 reaches. Each real
is a finite encoding with sign 0. -/
def Obligations.RealRangeLaws : Prop :=
  (∀ (e : EngineId) (y : BitVec e.width),
    (∀ mode, FiniteReal (real1Bits mode e y) ∧ 0 ≤ realValue (real1Bits mode e y) ∧
      realValue (real1Bits mode e y) ≤ 1) ∧
    (FiniteReal (real2Bits e y) ∧ 0 ≤ realValue (real2Bits e y) ∧ realValue (real2Bits e y) < 1) ∧
    (FiniteReal (real3Bits e y) ∧ 0 < realValue (real3Bits e y) ∧ realValue (real3Bits e y) < 1)) ∧
  (∀ a b : BitVec 32, FiniteReal (res53Bits a b) ∧ 0 ≤ realValue (res53Bits a b) ∧ realValue (res53Bits a b) < 1) ∧
  (∀ (e : EngineId) (mode : Real1Mode), real1Bits mode e 0 = 0x0000000000000000 ∧
    real1Bits mode e (BitVec.allOnes e.width) = 0x3FF0000000000000) ∧
  (∀ (e : EngineId) (y : BitVec e.width) (n : Int), 0 < n → n < 2 ^ (e.width - 1) →
    ((wordMod y n).toNat : Int) < n)

/-! ## Warmup -/

/-- R208: WARMUP c leaves what c consecutive extractions leave, for every 64-bit count; RES is unchanged. -/
def Obligations.WarmupDiscardsCountWords : Prop :=
  ∀ (e : EngineId) (opa : Word64), decode { cw := e.word 0x030 0x130, opa := opa } = .ok (.warmup e opa) ∧
    ∀ s : State, s.Inv →
    exec (.warmup e opa) s = .next ((fun u : State => u.afterWord e)^[opa.toNat] s) ∧
    ((fun u : State => u.afterWord e)^[opa.toNat] s).hostRes = s.hostRes

/-- R209: WARMUP_ENT discards a prime number of words below 2^64 that the entropy value determines, and takes
Fault(ENTROPY), nothing consumed, when the source fails. The map from the value to the prime is a free value (log entry 6). -/
def Obligations.WarmupEntropyDiscardsPrimeOrFaults : Prop :=
  ∀ (e : EngineId) (s : State), (∀ opa, decode { cw := e.word 0x031 0x131, opa := opa } = .ok (.warmupEnt e)) ∧
    (∀ r, s.Inv → s.entropyAnswer = .data r →
      (warmupCount r).Prime ∧ warmupCount r < 2 ^ 64 ∧
      exec (.warmupEnt e) s = .next ((fun u : State => u.afterWord e)^[warmupCount r] s.afterEntropy)) ∧
    (s.entropyAnswer = .fail → ∃ t, exec (.warmupEnt e) s = .next t ∧ s.FaultTaken .entropy t)

/-! ## The whole machine -/

/-- R35: after a command that extracts (one that writes RES, WARMUP with a count other than 0, WARMUP_ENT), the engine it
selects is primed: `cursor + remaining` = N + 1, both at least 1. -/
def Obligations.ExtractionLeavesEnginePrimed : Prop :=
  ∀ (i : Instr) (s t : State), s.Inv → s.cause i = none → i.wellFormed = true → exec i s = .next t →
    i.extracts = true →
    (t.engine i.engine).cursor + (t.engine i.engine).remaining = i.engine.consts.n + 1 ∧
    1 ≤ (t.engine i.engine).remaining ∧ (t.engine i.engine).remaining ≤ i.engine.consts.n ∧
    1 ≤ (t.engine i.engine).cursor ∧ (t.engine i.engine).seeded = true

/-- R78: a command reads and writes only the engine it selects and the port: it leaves the other engine as it is, and with
any other contents of the other engine it does the same. -/
def Obligations.CommandsUseOnlyTheirEngine : Prop :=
  ∀ (i : Instr) (s t : State) (f : EngineId) (g : Engine f.width), f ≠ i.engine → exec i s = .next t →
    t.engine f = s.engine f ∧ exec i (s.setEngine f g) = .next (t.setEngine f g)

/-- R37: only the result-producing commands write RES, and after one that completes RES has a value. -/
def Obligations.OnlyResultCommandsWriteRes : Prop :=
  ∀ (i : Instr) (s t : State), exec i s = .next t →
    ((i.writesRes = false ∨ s.cause i ≠ none) → t.hostRes = s.hostRes ∧ t.res = s.res) ∧
    (i.writesRes = true → i.wellFormed = true → s.cause i = none → t.hostRes = some t.res)

/-- R36: only KEY_CLR and KEY_PUSH change the key store, and only on the engine they select. -/
def Obligations.OnlyKeyCommandsChangeKeyStore : Prop :=
  ∀ (i : Instr) (s t : State) (e : EngineId), exec i s = .next t → (i.writesKey = false ∨ e ≠ i.engine) →
    (t.engine e).key = (s.engine e).key ∧ (t.engine e).klen = (s.engine e).klen

/-- The frame of every legal command: the captured command (kept by the model's choice, log entry 10), the parameters and
the inputs stay; STATUS, FCMD and FOPA stay
unless the command takes a fault; the entropy inputs stay unless it asks for one. -/
def Obligations.CommandFrame : Prop :=
  ∀ (i : Instr) (s t : State), i.wellFormed = true → exec i s = .next t →
    t.cw = s.cw ∧ t.opa = s.opa ∧ t.params = s.params ∧ t.hostIn = s.hostIn ∧
    (s.cause i = none → t.status = s.status ∧ t.fcmd = s.fcmd ∧ t.fopa = s.fopa) ∧
    ((∀ e, i ≠ .seedEnt e ∧ i ≠ .warmupEnt e) → t.entropyIn = s.entropyIn ∧ t.entropyDraws = s.entropyDraws)

/-- R46: what the spec leaves unspecified cannot be observed. Two states that agree in everything else answer every input
alike, and agree again after it. The captured CW and OPA count among them (R40, log entry 10). -/
def Obligations.UnspecifiedItemsAreUnobservable : Prop :=
  ∀ s t s' : State, s.Inv → t.Inv → s.Agree t → step s = .next s' →
    ∃ t', step t = .next t' ∧ s'.Agree t'

/-! ## The assembler -/

/-- R100: an operand in [-2^63, 2^64) is encoded as its 64-bit two's-complement value, and any other is refused. -/
def Obligations.AssemblerEncodesOperands : Prop :=
  ∀ v : Int, (-(2 ^ 63) ≤ v ∧ v < 2 ^ 64 → ∃ w : Word64, asmOperand v = .ok w ∧ (w.toNat : Int) = v % 2 ^ 64) ∧
    (¬(-(2 ^ 63) ≤ v ∧ v < 2 ^ 64) → asmOperand v = .error .range)

/-- R101: the expansions of the three pseudo-instructions, and the lengths for which `seed_array` is refused. -/
def Obligations.PseudoInstructionsExpand : Prop :=
  ∀ (kmax : Nat) (e : EngineId),
    (∀ key : List Word64, 1 ≤ key.length → key.length ≤ kmax →
      (AsmStatement.seedArray e key).expand kmax = .ok ([.keyClr e] ++ key.map (fun k => .keyPush e k) ++ [.seedArr e])) ∧
    (∀ key : List Word64, (key.length = 0 ∨ kmax < key.length) →
      (AsmStatement.seedArray e key).expand kmax = .error .keyLength) ∧
    (AsmStatement.seedDefault e).expand kmax = .ok [.seed e 5489] ∧
    (∀ k : Word64, (AsmStatement.discard e k).expand kmax = .ok [.warmup e k])
end

