-- ==== Sys2Proof/Laws/Binary64.lean ====
section
/-! SUPPORT. The binary64 primitives of Machine/Binary64.lean: what an encoding stands for, and that rounding is to nearest with
ties to even. -/

namespace Sys2Proof.Machine

/-! ## What an encoding stands for -/

/-- The encoding whose bits are (e + 1074) * 2^52 + n, with e at least -1074 and n at most 2^53, normalised. -/
abbrev Packs (f : Word64) (e : ℤ) (n : ℕ) : Prop :=
  -1074 ≤ e ∧ n ≤ 2 ^ 53 ∧ (e = -1074 ∨ 2 ^ 52 ≤ n) ∧ f.toNat = (e + 1074).toNat * 2 ^ 52 + n

theorem two_zpow_pos (e : ℤ) : (0 : ℚ) < 2 ^ e := zpow_pos (by norm_num) e

theorem realValue_of_exponent (f : Word64) (x : ℕ) (fr : ℕ) (hx : 1 ≤ x) (hx2 : x < 2047) (hfr : fr < 2 ^ 52)
    (hf : f.toNat = x * 2 ^ 52 + fr) : realValue f = ((2 ^ 52 + fr : ℕ) : ℚ) * 2 ^ ((x : ℤ) - 1075) := by
  have h1 : (f.extractLsb' 52 11).toNat = x := by
    simp only [BitVec.extractLsb'_toNat, hf, Nat.shiftRight_eq_div_pow]; omega
  have h2 : (f.extractLsb' 0 52).toNat = fr := by
    simp only [BitVec.extractLsb'_toNat, hf, Nat.shiftRight_eq_div_pow]; omega
  unfold realValue binaryValue
  simp only [h1, h2, if_neg (show x ≠ 0 by omega)]
  by_cases h : 1075 ≤ x
  · simp only [if_pos h]
    have : (x : ℤ) - 1075 = ((x - 1075 : ℕ) : ℤ) := by omega
    rw [this, zpow_natCast]
    push_cast
    ring
  · simp only [if_neg h]
    have : (x : ℤ) - 1075 = -((1075 - x : ℕ) : ℤ) := by omega
    rw [this, zpow_neg, zpow_natCast]
    push_cast
    rfl

theorem realValue_of_subnormal (f : Word64) (fr : ℕ) (hfr : fr < 2 ^ 52) (hf : f.toNat = fr) :
    realValue f = (fr : ℚ) * 2 ^ (-1074 : ℤ) := by
  have h1 : (f.extractLsb' 52 11).toNat = 0 := by
    simp only [BitVec.extractLsb'_toNat, hf, Nat.shiftRight_eq_div_pow]; omega
  have h2 : (f.extractLsb' 0 52).toNat = fr := by
    simp only [BitVec.extractLsb'_toNat, hf, Nat.shiftRight_eq_div_pow]; omega
  unfold realValue binaryValue
  simp only [h1, h2, if_true]
  rw [zpow_neg, show (1074 : ℤ) = ((1074 : ℕ) : ℤ) from rfl, zpow_natCast, div_eq_mul_inv, Nat.cast_pow, Nat.cast_ofNat]

/-- A packed finite encoding stands for n * 2^e. -/
theorem realValue_of_packs {f : Word64} {e : ℤ} {n : ℕ} (h : Packs f e n) (hf : FiniteReal f) :
    realValue f = (n : ℚ) * 2 ^ e := by
  obtain ⟨he, hn, hno, hb⟩ := h
  unfold FiniteReal at hf
  by_cases hs : n < 2 ^ 52
  · have he' : e = -1074 := by omega
    subst he'
    exact realValue_of_subnormal f n hs (by simpa using hb)
  · by_cases hc : n = 2 ^ 53
    · have hx : (e + 1076).toNat = (e + 1074).toNat + 2 := by omega
      have := realValue_of_exponent f (e + 1076).toNat 0 (by omega) (by omega) (by norm_num) (by rw [hb, hx, hc]; ring)
      rw [this, hc]
      have he2 : (((e + 1076).toNat : ℕ) : ℤ) - 1075 = e + 1 := by omega
      rw [he2, zpow_add₀ (by norm_num)]
      push_cast
      ring
    · have hx : (e + 1075).toNat = (e + 1074).toNat + 1 := by omega
      have := realValue_of_exponent f (e + 1075).toNat (n - 2 ^ 52) (by omega) (by omega) (by omega)
        (by rw [hb, hx, Nat.add_mul, Nat.one_mul]; omega)
      rw [this]
      have he2 : (((e + 1075).toNat : ℕ) : ℤ) - 1075 = e := by omega
      rw [he2, show 2 ^ 52 + (n - 2 ^ 52) = n by omega]

/-- Every finite encoding is packed, with n below 2^53. -/
theorem exists_packs {f : Word64} (hf : FiniteReal f) : ∃ e n, Packs f e n ∧ n < 2 ^ 53 := by
  unfold FiniteReal at hf
  by_cases h : f.toNat < 2 ^ 52
  · exact ⟨-1074, f.toNat, ⟨le_refl _, by omega, Or.inl rfl, by simp⟩, by omega⟩
  · refine ⟨(f.toNat / 2 ^ 52 : ℕ) - 1075, 2 ^ 52 + f.toNat % 2 ^ 52, ⟨by omega, by omega, Or.inr (by omega), ?_⟩, by omega⟩
    omega

theorem realValue_nonneg (f : Word64) : 0 ≤ realValue f := by
  unfold realValue; positivity

theorem binaryValue_den_pos (f : Word64) : 0 < (binaryValue f).den := by
  unfold binaryValue
  simp only
  split
  · positivity
  · split <;> positivity

/-! ## Rounding to an integer -/

theorem nearestEven_spec (num den : ℕ) (hd : 0 < den) :
    |(nearestEven num den : ℚ) - num / den| ≤ 1 / 2 ∧
    (|(nearestEven num den : ℚ) - num / den| = 1 / 2 → nearestEven num den % 2 = 0) := by
  have hdq : (0 : ℚ) < den := by exact_mod_cast hd
  have hdiv : (num : ℚ) = (num / den : ℕ) * den + (num % den : ℕ) := by
    exact_mod_cast (Nat.div_add_mod' num den).symm
  have hlt : num % den < den := Nat.mod_lt _ hd
  set q := num / den with hq
  set r := num % den with hr
  have hx : (num : ℚ) / den = q + r / den := by rw [hdiv]; field_simp
  have hr0 : (0 : ℚ) ≤ r / den := by positivity
  have hr1 : (r : ℚ) / den < 1 := by rw [div_lt_one hdq]; exact_mod_cast hlt
  have e1 : nearestEven num den = if den < 2 * r then q + 1 else if 2 * r = den ∧ q % 2 = 1 then q + 1 else q := rfl
  rw [e1, hx]
  by_cases h1 : den < 2 * r
  · rw [if_pos h1]
    have h2 : (1 : ℚ) / 2 < r / den := by
      rw [div_lt_div_iff₀ (by norm_num) hdq]; exact_mod_cast (by omega : 1 * den < r * 2)
    push_cast
    constructor
    · rw [abs_le]; constructor <;> linarith
    · intro h
      rw [abs_of_nonneg (by linarith)] at h
      linarith
  · rw [if_neg h1]
    have h2 : (r : ℚ) / den ≤ 1 / 2 := by
      rw [div_le_div_iff₀ hdq (by norm_num)]; exact_mod_cast (by omega : r * 2 ≤ 1 * den)
    by_cases h3 : 2 * r = den ∧ q % 2 = 1
    · rw [if_pos h3]
      have h4 : (r : ℚ) / den = 1 / 2 := by
        rw [div_eq_div_iff (ne_of_gt hdq) (by norm_num)]; exact_mod_cast (by omega : r * 2 = 1 * den)
      rw [h4]
      push_cast
      constructor
      · rw [abs_le]; constructor <;> linarith
      · intro _; omega
    · rw [if_neg h3]
      constructor
      · rw [abs_le]; constructor <;> linarith
      · intro h
        have h5 : (r : ℚ) / den = 1 / 2 := by
          rw [abs_of_nonpos (by linarith)] at h; linarith
        rw [div_eq_div_iff (ne_of_gt hdq) (by norm_num)] at h5
        have h6 : r * 2 = 1 * den := by exact_mod_cast h5
        by_contra h7
        exact h3 ⟨by omega, by omega⟩

theorem nearestEven_eq_of_mul (m den : ℕ) (hd : 0 < den) : nearestEven (m * den) den = m := by
  unfold nearestEven
  simp [Nat.mul_div_cancel m hd]
  omega

/-! ## The exponent -/

theorem scaled_eq (num den : ℕ) (hd : 0 < den) (e : ℤ) :
    ((num * 2 ^ (-e).toNat : ℕ) : ℚ) / ((den * 2 ^ e.toNat : ℕ) : ℚ) = (num : ℚ) / den * 2 ^ (-e) := by
  have hdq : (den : ℚ) ≠ 0 := by exact_mod_cast hd.ne'
  rcases le_total 0 e with h | h
  · obtain ⟨k, rfl⟩ := Int.eq_ofNat_of_zero_le h
    rw [show (-(k : ℤ)).toNat = 0 by omega, show ((k : ℤ)).toNat = k by omega, zpow_neg, zpow_natCast]
    push_cast
    field_simp
  · obtain ⟨k, hk⟩ := Int.eq_ofNat_of_zero_le (show 0 ≤ -e by omega)
    rw [hk, show ((k : ℤ)).toNat = k by omega, show e.toNat = 0 by omega, zpow_natCast]
    push_cast
    field_simp

theorem ilog2_spec (num den : ℕ) (hn : 0 < num) (hd : 0 < den) :
    (2 : ℚ) ^ (ilog2 num den) ≤ (num : ℚ) / den ∧ (num : ℚ) / den < 2 ^ (ilog2 num den + 1) := by
  have hdq : (0 : ℚ) < den := by exact_mod_cast hd
  have hnq : (0 : ℚ) < num := by exact_mod_cast hn
  have n1 : (2 : ℚ) ^ (Nat.log2 num) ≤ num := by exact_mod_cast Nat.log2_self_le hn.ne'
  have n2 : (num : ℚ) < 2 ^ (Nat.log2 num + 1) := by exact_mod_cast Nat.lt_log2_self
  have d1 : (2 : ℚ) ^ (Nat.log2 den) ≤ den := by exact_mod_cast Nat.log2_self_le hd.ne'
  have d2 : (den : ℚ) < 2 ^ (Nat.log2 den + 1) := by exact_mod_cast Nat.lt_log2_self
  set a := Nat.log2 num
  set b := Nat.log2 den
  have hlow : (2 : ℚ) ^ ((a : ℤ) - b - 1) ≤ (num : ℚ) / den := by
    rw [le_div_iff₀ hdq]
    have : (2 : ℚ) ^ ((a : ℤ) - b - 1) * 2 ^ (b + 1) = 2 ^ a := by
      rw [← zpow_natCast, ← zpow_natCast, ← zpow_add₀ (by norm_num)]; congr 1; push_cast; ring
    calc _ ≤ (2 : ℚ) ^ ((a : ℤ) - b - 1) * 2 ^ (b + 1) :=
          mul_le_mul_of_nonneg_left d2.le (two_zpow_pos _).le
      _ = 2 ^ a := this
      _ ≤ num := n1
  have hhigh : (num : ℚ) / den < 2 ^ ((a : ℤ) - b + 1) := by
    rw [div_lt_iff₀ hdq]
    have : (2 : ℚ) ^ ((a : ℤ) - b + 1) * 2 ^ b = 2 ^ (a + 1) := by
      rw [← zpow_natCast, ← zpow_natCast, ← zpow_add₀ (by norm_num)]; congr 1; push_cast; ring
    calc (num : ℚ) < 2 ^ (a + 1) := n2
      _ = (2 : ℚ) ^ ((a : ℤ) - b + 1) * 2 ^ b := this.symm
      _ ≤ _ := mul_le_mul_of_nonneg_left d1 (two_zpow_pos _).le
  have hcmp : num * 2 ^ (-((a : ℤ) - b)).toNat < den * 2 ^ ((a : ℤ) - b).toNat ↔ (num : ℚ) / den < 2 ^ ((a : ℤ) - b) := by
    have hs := scaled_eq num den hd ((a : ℤ) - b)
    have hpos : (0 : ℚ) < ((den * 2 ^ ((a : ℤ) - b).toNat : ℕ) : ℚ) := by positivity
    rw [← @Nat.cast_lt ℚ, ← div_lt_one hpos, hs, zpow_neg, ← div_eq_mul_inv, div_lt_one (two_zpow_pos _)]
  have e1 : ilog2 num den = if num * 2 ^ (-((a : ℤ) - b)).toNat < den * 2 ^ ((a : ℤ) - b).toNat then (a : ℤ) - b - 1
      else (a : ℤ) - b := rfl
  rw [e1]
  by_cases h : num * 2 ^ (-((a : ℤ) - b)).toNat < den * 2 ^ ((a : ℤ) - b).toNat
  · rw [if_pos h]
    refine ⟨hlow, ?_⟩
    rw [sub_add_cancel]
    exact hcmp.mp h
  · rw [if_neg h]
    exact ⟨not_lt.mp (mt hcmp.mpr h), hhigh⟩

/-! ## Rounding -/

/-- The significand that rounding picks, before it is packed. -/
abbrev roundedSignificand (num den : ℕ) : ℕ :=
  nearestEven (num * 2 ^ (-(ulpExponent num den)).toNat) (den * 2 ^ (ulpExponent num den).toNat)

theorem ulpExponent_spec (num den : ℕ) (hn : 0 < num) (hd : 0 < den) :
    -1074 ≤ ulpExponent num den ∧ (num : ℚ) / den * 2 ^ (-(ulpExponent num den)) < 2 ^ 53 ∧
    (ulpExponent num den = -1074 ∨ 2 ^ 52 ≤ (num : ℚ) / den * 2 ^ (-(ulpExponent num den))) := by
  obtain ⟨h1, h2⟩ := ilog2_spec num den hn hd
  refine ⟨le_max_right _ _, ?_, ?_⟩
  · have hle : ilog2 num den + 1 + -(ulpExponent num den) ≤ 53 := by
      have := le_max_left (ilog2 num den - 52) (-1074)
      simp only [ulpExponent]; omega
    calc (num : ℚ) / den * 2 ^ (-(ulpExponent num den))
        < 2 ^ (ilog2 num den + 1) * 2 ^ (-(ulpExponent num den)) := mul_lt_mul_of_pos_right h2 (two_zpow_pos _)
      _ = 2 ^ (ilog2 num den + 1 + -(ulpExponent num den)) := by rw [← zpow_add₀ (by norm_num)]
      _ ≤ 2 ^ (53 : ℤ) := zpow_le_zpow_right₀ (by norm_num) hle
      _ = 2 ^ 53 := by norm_num
  · by_cases h : ilog2 num den - 52 ≤ -1074
    · left; simp [ulpExponent, h]
    · right
      have he : ulpExponent num den = ilog2 num den - 52 := by simp only [ulpExponent]; omega
      rw [he]
      calc (2 : ℚ) ^ 52 = 2 ^ (ilog2 num den) * 2 ^ (-(ilog2 num den - 52)) := by
            rw [← zpow_add₀ (by norm_num), show ilog2 num den + -(ilog2 num den - 52) = 52 by ring]; norm_num
        _ ≤ _ := mul_le_mul_of_nonneg_right h1 (two_zpow_pos _).le

theorem roundedSignificand_spec (num den : ℕ) (hd : 0 < den) :
    |(roundedSignificand num den : ℚ) - (num : ℚ) / den * 2 ^ (-(ulpExponent num den))| ≤ 1 / 2 ∧
    (|(roundedSignificand num den : ℚ) - (num : ℚ) / den * 2 ^ (-(ulpExponent num den))| = 1 / 2 →
      roundedSignificand num den % 2 = 0) := by
  have := nearestEven_spec (num * 2 ^ (-(ulpExponent num den)).toNat) (den * 2 ^ (ulpExponent num den).toNat) (by positivity)
  rw [scaled_eq num den hd] at this
  exact this

/-- A finite rounded value is packed from the rounded significand. -/
theorem roundBinary64_packs (num den : ℕ) (hn : 0 < num) (hd : 0 < den) (hf : FiniteReal (roundBinary64 num den)) :
    Packs (roundBinary64 num den) (ulpExponent num den) (roundedSignificand num den) := by
  obtain ⟨he, hlt, hlo⟩ := ulpExponent_spec num den hn hd
  obtain ⟨hs, -⟩ := roundedSignificand_spec num den hd
  rw [abs_le] at hs
  refine ⟨he, ?_, ?_, ?_⟩
  · have : (roundedSignificand num den : ℚ) < ((2 ^ 53 + 1 : ℕ) : ℚ) := by push_cast; linarith
    have := Nat.cast_lt.mp this
    omega
  · rcases hlo with h | h
    · exact Or.inl h
    · right
      have h1 : (2 : ℚ) ^ 52 < ((roundedSignificand num den + 1 : ℕ) : ℚ) := by
        push_cast; linarith [hs.1]
      have : 2 ^ 52 < roundedSignificand num den + 1 := by exact_mod_cast h1
      omega
  · have e1 : roundBinary64 num den = BitVec.ofNat 64
        (min ((ulpExponent num den + 1074).toNat * 2 ^ 52 + roundedSignificand num den) 0x7FF0000000000000) := by
      simp only [roundBinary64, if_neg hn.ne']
    unfold FiniteReal at hf
    rw [e1, BitVec.toNat_ofNat] at hf ⊢
    have hm := Nat.min_le_right ((ulpExponent num den + 1074).toNat * 2 ^ 52 + roundedSignificand num den) 0x7FF0000000000000
    rw [Nat.mod_eq_of_lt (by omega)] at hf ⊢
    rcases Nat.le_total ((ulpExponent num den + 1074).toNat * 2 ^ 52 + roundedSignificand num den) 0x7FF0000000000000 with h | h
    · rw [min_eq_left h]
    · rw [min_eq_right h] at hf; omega

/-- Two packed finite encodings of one value are one encoding. -/
theorem packs_inj {f h : Word64} {e e' : ℤ} {n n' : ℕ} (hf : Packs f e n) (hh : Packs h e' n') (hn' : n' < 2 ^ 53)
    (hle : e ≤ e') (hv : n = n' * 2 ^ (e' - e).toNat) : h = f := by
  obtain ⟨h1, h2, h3, h4⟩ := hf
  obtain ⟨g1, g2, g3, g4⟩ := hh
  apply BitVec.eq_of_toNat_eq
  by_cases he : e' = e
  · subst he; simp at hv; subst hv; rw [h4, g4]
  · have hn52 : 2 ^ 52 ≤ n' := by omega
    obtain ⟨d, hd⟩ : ∃ d, (e' - e).toNat = d + 1 := ⟨(e' - e).toNat - 1, by omega⟩
    rw [hd, pow_succ] at hv
    have hd0 : d = 0 := by
      by_contra hne
      have : 2 ≤ 2 ^ d := by
        calc 2 = 2 ^ 1 := rfl
          _ ≤ 2 ^ d := Nat.pow_le_pow_right (by norm_num) (by omega)
      have : n' * (2 * 2) ≤ n' * (2 ^ d * 2) := Nat.mul_le_mul_left _ (by omega)
      omega
    subst hd0
    simp at hv
    omega

/-- Rounding is to nearest, with ties to even (R14). -/
theorem roundBinary64_roundsTo (num den : ℕ) (hd : 0 < den) (hf : FiniteReal (roundBinary64 num den)) :
    RoundsTo ((num : ℚ) / den) (roundBinary64 num den) := by
  intro h hh
  rcases Nat.eq_zero_or_pos num with h0 | hn
  · subst h0
    have hz : roundBinary64 0 den = 0 := rfl
    have hv0 : realValue 0 = 0 := by rw [realValue_of_subnormal 0 0 (by norm_num) rfl]; simp
    rw [hz, hv0]
    simp
  · have hp := roundBinary64_packs num den hn hd hf
    have hv := realValue_of_packs hp hf
    obtain ⟨he, hlt, hlo⟩ := ulpExponent_spec num den hn hd
    obtain ⟨hs, hs2⟩ := roundedSignificand_spec num den hd
    obtain ⟨e', n', hp', hn'⟩ := exists_packs hh
    have hv' := realValue_of_packs hp' hh
    set e := ulpExponent num den
    set n := roundedSignificand num den
    set x : ℚ := (num : ℚ) / den * 2 ^ (-e) with hx
    have hpos := two_zpow_pos e
    have hq : (num : ℚ) / den = x * 2 ^ e := by
      rw [hx, mul_assoc, ← zpow_add₀ (by norm_num), neg_add_cancel, zpow_zero, mul_one]
    have hscale : ∀ y : ℚ, |y * 2 ^ e - x * 2 ^ e| = |y - x| * 2 ^ e := by
      intro y; rw [← sub_mul, abs_mul, abs_of_pos hpos]
    have heven : n % 2 = 0 → (roundBinary64 num den).getLsbD 0 = false := by
      intro h2
      have := hp.2.2.2
      simp only [BitVec.getLsbD, Nat.testBit_zero, this]
      simp; omega
    -- h's value in units of 2^e
    obtain ⟨y, hy⟩ : ∃ y : ℚ, realValue h = y * 2 ^ e := ⟨n' * 2 ^ (e' - e), by
      rw [hv', mul_assoc, ← zpow_add₀ (by norm_num)]; congr 2; ring⟩
    rw [hv, hq, hy, hscale, hscale]
    have key : (|(n : ℚ) - x| ≤ |y - x|) ∧ (|(n : ℚ) - x| = |y - x| → h ≠ roundBinary64 num den → n % 2 = 0) := by
      by_cases hle : e ≤ e'
      · -- h is a whole number of units
        have hyn : y = ((n' * 2 ^ (e' - e).toNat : ℕ) : ℚ) := by
          have : y * 2 ^ e = ((n' * 2 ^ (e' - e).toNat : ℕ) : ℚ) * 2 ^ e := by
            rw [← hy, hv']; push_cast
            rw [mul_assoc, ← zpow_natCast, ← zpow_add₀ (by norm_num)]; congr 2; omega
          exact mul_right_cancel₀ hpos.ne' this
        set m := n' * 2 ^ (e' - e).toNat with hm
        rw [hyn]
        by_cases hnm : n = m
        · rw [hnm]
          refine ⟨le_refl _, fun _ hne => ?_⟩
          exact absurd (packs_inj hp hp' hn' hle hnm) hne
        · have h1 : (1 : ℚ) ≤ |(m : ℚ) - n| := by
            have : (1 : ℤ) ≤ |(m : ℤ) - n| := Int.one_le_abs (by omega)
            exact_mod_cast this
          have h2 : |(m : ℚ) - n| ≤ |(m : ℚ) - x| + |(n : ℚ) - x| := by
            have := abs_sub_le (m : ℚ) x n
            rwa [abs_sub_comm x (n : ℚ)] at this
          exact ⟨by linarith, fun heq _ => hs2 (by linarith)⟩
      · -- h lies in a lower binade
        have hlo' : (2 : ℚ) ^ 52 ≤ x := by
          rcases hlo with h1 | h1
          · have := hp'.1; omega
          · exact h1
        have hyu : y ≤ 2 ^ 52 - 1 / 2 := by
          have h1 : y * 2 ^ e ≤ (2 ^ 53 - 1) * 2 ^ (e - 1) := by
            rw [← hy, hv']
            have a1 : (n' : ℚ) ≤ 2 ^ 53 - 1 := by
              have : (n' : ℚ) ≤ ((2 ^ 53 - 1 : ℕ) : ℚ) := by exact_mod_cast (by omega : n' ≤ 2 ^ 53 - 1)
              norm_num at this ⊢; linarith
            have a2 : (2 : ℚ) ^ e' ≤ 2 ^ (e - 1) := zpow_le_zpow_right₀ (by norm_num) (by omega)
            exact mul_le_mul a1 a2 (two_zpow_pos _).le (by norm_num)
          have h2 : (2 : ℚ) ^ (e - 1) = 2 ^ e / 2 := by rw [zpow_sub₀ (by norm_num)]; norm_num
          rw [h2] at h1
          have h3 : y * 2 ^ e ≤ (2 ^ 52 - 1 / 2) * 2 ^ e := by linarith
          exact le_of_mul_le_mul_right h3 hpos
        have h1 : (1 : ℚ) / 2 ≤ |y - x| := by
          rw [abs_of_nonpos (by linarith)]; linarith
        exact ⟨by linarith, fun heq _ => hs2 (by linarith)⟩
    refine ⟨mul_le_mul_of_nonneg_right key.1 hpos.le, fun heq hne => ?_⟩
    exact heven (key.2 (mul_right_cancel₀ hpos.ne' heq) hne)

/-- Below 2^1023 the rounded value is finite. -/
theorem roundBinary64_finite (num den : ℕ) (hd : 0 < den) (hlt : (num : ℚ) / den < 2 ^ 1023) :
    FiniteReal (roundBinary64 num den) := by
  rcases Nat.eq_zero_or_pos num with h0 | hn
  · subst h0; exact (by decide : (0 : Word64).toNat < 0x7FF0000000000000)
  · obtain ⟨h1, -⟩ := ilog2_spec num den hn hd
    have hl : ilog2 num den < 1023 := by
      have : (2 : ℚ) ^ (ilog2 num den) < 2 ^ (1023 : ℤ) := lt_of_le_of_lt h1 (by exact_mod_cast hlt)
      exact (zpow_lt_zpow_iff_right₀ (by norm_num)).mp this
    obtain ⟨he, hlt2, -⟩ := ulpExponent_spec num den hn hd
    obtain ⟨hs, -⟩ := roundedSignificand_spec num den hd
    rw [abs_le] at hs
    have hn2 : roundedSignificand num den ≤ 2 ^ 53 := by
      have : (roundedSignificand num den : ℚ) < ((2 ^ 53 + 1 : ℕ) : ℚ) := by push_cast; linarith
      have := Nat.cast_lt.mp this
      omega
    have he2 : ulpExponent num den ≤ 970 := by simp only [ulpExponent]; omega
    have e1 : roundBinary64 num den = BitVec.ofNat 64
        (min ((ulpExponent num den + 1074).toNat * 2 ^ 52 + roundedSignificand num den) 0x7FF0000000000000) := by
      simp only [roundBinary64, if_neg hn.ne']
    unfold FiniteReal
    rw [e1, BitVec.toNat_ofNat]
    have hb : (ulpExponent num den + 1074).toNat * 2 ^ 52 + roundedSignificand num den < 0x7FF0000000000000 := by omega
    rw [min_eq_left (by omega), Nat.mod_eq_of_lt (by omega)]
    exact hb

/-- A value with at most 53 significant bits is rounded to itself. -/
theorem roundBinary64_exact (num den : ℕ) (hd : 0 < den) (m : ℕ) (e' : ℤ) (hm : m < 2 ^ 53) (he' : -1074 ≤ e')
    (hv : (num : ℚ) / den = m * 2 ^ e') (hlt : (num : ℚ) / den < 2 ^ 1023) :
    FiniteReal (roundBinary64 num den) ∧ realValue (roundBinary64 num den) = (num : ℚ) / den := by
  have hf := roundBinary64_finite num den hd hlt
  refine ⟨hf, ?_⟩
  rcases Nat.eq_zero_or_pos num with h0 | hn
  · subst h0
    show realValue 0 = _
    rw [realValue_of_subnormal 0 0 (by norm_num) rfl]; simp
  · have hp := roundBinary64_packs num den hn hd hf
    have hrv := realValue_of_packs hp hf
    obtain ⟨he, hlt2, hlo⟩ := ulpExponent_spec num den hn hd
    have hle : ulpExponent num den ≤ e' := by
      rcases hlo with h | h
      · omega
      · rw [hv, mul_assoc, ← zpow_add₀ (by norm_num)] at h
        have hmq : (m : ℚ) < 2 ^ 53 := by exact_mod_cast hm
        have h1 : (2 : ℚ) ^ (52 : ℤ) < 2 ^ (53 + (e' + -(ulpExponent num den))) := by
          rw [zpow_add₀ (by norm_num : (2 : ℚ) ≠ 0) 53]
          calc (2 : ℚ) ^ (52 : ℤ) = 2 ^ 52 := by norm_num
            _ ≤ _ := h
            _ < 2 ^ 53 * 2 ^ (e' + -(ulpExponent num den)) := mul_lt_mul_of_pos_right hmq (two_zpow_pos _)
            _ = _ := by norm_num
        have := (zpow_lt_zpow_iff_right₀ (by norm_num : (1 : ℚ) < 2)).mp h1
        omega
    obtain ⟨hs, -⟩ := roundedSignificand_spec num den hd
    have hint : (num : ℚ) / den * 2 ^ (-(ulpExponent num den)) = ((m * 2 ^ (e' - ulpExponent num den).toNat : ℕ) : ℚ) := by
      rw [hv, mul_assoc, ← zpow_add₀ (by norm_num)]
      push_cast
      rw [← zpow_natCast]; congr 2; omega
    rw [hint] at hs
    have hEq : roundedSignificand num den = m * 2 ^ (e' - ulpExponent num den).toNat := by
      have h1 : |((roundedSignificand num den : ℤ) : ℚ) - ((m * 2 ^ (e' - ulpExponent num den).toNat : ℕ) : ℤ)| < 1 := by
        push_cast at hs ⊢; linarith
      have h2 : |(roundedSignificand num den : ℤ) - (m * 2 ^ (e' - ulpExponent num den).toNat : ℕ)| < 1 := by exact_mod_cast h1
      have h3 := Int.abs_lt_one_iff.mp h2
      omega
    rw [hrv, hEq, ← hint, mul_assoc, ← zpow_add₀ (by norm_num), neg_add_cancel, zpow_zero, mul_one]

/-- Rounding keeps the order of values. -/
theorem roundsTo_mono {q q' : ℚ} {f f' : Word64} (hq : q < q') (hf : RoundsTo q f) (hf' : RoundsTo q' f')
    (h1 : FiniteReal f) (h2 : FiniteReal f') : realValue f ≤ realValue f' := by
  by_contra hlt
  push Not at hlt
  have a := (hf f' h2).1
  have b := (hf' f h1).1
  rw [abs_sub_comm, abs_sub_comm (realValue f') q] at a
  rcases abs_cases (q - realValue f) with c1 | c1 <;> rcases abs_cases (q - realValue f') with c2 | c2 <;>
    rcases abs_cases (realValue f' - q') with c3 | c3 <;> rcases abs_cases (realValue f - q') with c4 | c4 <;>
    linarith

/-! ## The primitives -/

theorem fadd_eq_div (x y : Word64) :
    (((binaryValue x).num * (binaryValue y).den + (binaryValue y).num * (binaryValue x).den : ℕ) : ℚ) /
      ((binaryValue x).den * (binaryValue y).den : ℕ) = realValue x + realValue y := by
  have hx : ((binaryValue x).den : ℚ) ≠ 0 := by exact_mod_cast (binaryValue_den_pos x).ne'
  have hy : ((binaryValue y).den : ℚ) ≠ 0 := by exact_mod_cast (binaryValue_den_pos y).ne'
  unfold realValue
  push_cast
  field_simp

theorem fmul_eq_div (x y : Word64) :
    (((binaryValue x).num * (binaryValue y).num : ℕ) : ℚ) / ((binaryValue x).den * (binaryValue y).den : ℕ) =
      realValue x * realValue y := by
  unfold realValue
  push_cast
  rw [div_mul_div_comm]

theorem fdiv_eq_div (x y : Word64) :
    (((binaryValue x).num * (binaryValue y).den : ℕ) : ℚ) / ((binaryValue x).den * (binaryValue y).num : ℕ) =
      realValue x / realValue y := by
  unfold realValue
  push_cast
  rw [div_div_div_eq]

theorem binaryValue_num_pos {y : Word64} (h : realValue y ≠ 0) : 0 < (binaryValue y).num := by
  rcases Nat.eq_zero_or_pos (binaryValue y).num with h0 | h0
  · exact absurd (by unfold realValue; rw [h0]; simp) h
  · exact h0

/-- fp is exact below 2^53 (R14). -/
theorem fp_exact (v : ℕ) (h : v < 2 ^ 53) : FiniteReal (fp v) ∧ realValue (fp v) = v := by
  have hv : (v : ℚ) < 2 ^ 53 := by exact_mod_cast h
  have hlt : ((v : ℕ) : ℚ) / ((1 : ℕ) : ℚ) < 2 ^ 1023 := by
    rw [Nat.cast_one, div_one]
    exact lt_trans hv (pow_lt_pow_right₀ (by norm_num) (by norm_num))
  have := roundBinary64_exact v 1 (by norm_num) v 0 h (by norm_num) (by simp) hlt
  simpa [fp] using this

/-- fadd is exact where the sum has at most 53 significant bits. -/
theorem fadd_exact {x y : Word64} (m : ℕ) (e : ℤ) (hm : m < 2 ^ 53) (he : -1074 ≤ e)
    (hv : realValue x + realValue y = m * 2 ^ e) (hlt : realValue x + realValue y < 2 ^ 1023) :
    FiniteReal (fadd x y) ∧ realValue (fadd x y) = realValue x + realValue y := by
  rw [← fadd_eq_div] at hv hlt ⊢
  exact roundBinary64_exact _ _ (Nat.mul_pos (binaryValue_den_pos x) (binaryValue_den_pos y)) m e hm he hv hlt

/-- fmul is exact where the product has at most 53 significant bits. -/
theorem fmul_exact {x y : Word64} (m : ℕ) (e : ℤ) (hm : m < 2 ^ 53) (he : -1074 ≤ e)
    (hv : realValue x * realValue y = m * 2 ^ e) (hlt : realValue x * realValue y < 2 ^ 1023) :
    FiniteReal (fmul x y) ∧ realValue (fmul x y) = realValue x * realValue y := by
  rw [← fmul_eq_div] at hv hlt ⊢
  exact roundBinary64_exact _ _ (Nat.mul_pos (binaryValue_den_pos x) (binaryValue_den_pos y)) m e hm he hv hlt

/-- fdiv is exact where the quotient has at most 53 significant bits. -/
theorem fdiv_exact {x y : Word64} (m : ℕ) (e : ℤ) (hm : m < 2 ^ 53) (he : -1074 ≤ e) (hy : realValue y ≠ 0)
    (hv : realValue x / realValue y = m * 2 ^ e) (hlt : realValue x / realValue y < 2 ^ 1023) :
    FiniteReal (fdiv x y) ∧ realValue (fdiv x y) = realValue x / realValue y := by
  rw [← fdiv_eq_div] at hv hlt ⊢
  exact roundBinary64_exact _ _ (Nat.mul_pos (binaryValue_den_pos x) (binaryValue_num_pos hy)) m e hm he hv hlt

end Sys2Proof.Machine
end

