-- ==== Sys2Proof/Laws/State.lean ====
section
/-! SUPPORT. What each update of State and of Engine does to each field: one lemma a field, so that no later proof unfolds
an update. -/

namespace Sys2Proof.Machine

variable (s : State)

/-! ## setEngine -/

@[simp] theorem State.engine_mt32 : s.engine .mt32 = s.mt32 := rfl
@[simp] theorem State.engine_mt64 : s.engine .mt64 = s.mt64 := rfl
@[simp] theorem State.engine_setEngine (e : EngineId) (g : Engine e.width) : (s.setEngine e g).engine e = g := by
  cases e <;> rfl
theorem State.engine_setEngine_of_ne {e f : EngineId} (h : f ≠ e) (g : Engine e.width) :
    (s.setEngine e g).engine f = s.engine f := by
  cases e <;> cases f <;> first | rfl | exact absurd rfl h
@[simp] theorem State.setEngine_engine (e : EngineId) : s.setEngine e (s.engine e) = s := by cases e <;> rfl
@[simp] theorem State.setEngine_setEngine (e : EngineId) (g h : Engine e.width) :
    (s.setEngine e g).setEngine e h = s.setEngine e h := by cases e <;> rfl
@[simp] theorem State.setEngine_mt32_mt32 (g : Engine 32) : (s.setEngine .mt32 g).mt32 = g := rfl
@[simp] theorem State.setEngine_mt32_mt64 (g : Engine 32) : (s.setEngine .mt32 g).mt64 = s.mt64 := rfl
@[simp] theorem State.setEngine_mt64_mt64 (g : Engine 64) : (s.setEngine .mt64 g).mt64 = g := rfl
@[simp] theorem State.setEngine_mt64_mt32 (g : Engine 64) : (s.setEngine .mt64 g).mt32 = s.mt32 := rfl
@[simp] theorem State.setEngine_res (e : EngineId) (g : Engine e.width) : (s.setEngine e g).res = s.res := by
  cases e <;> rfl
@[simp] theorem State.setEngine_resValid (e : EngineId) (g : Engine e.width) : (s.setEngine e g).resValid = s.resValid := by
  cases e <;> rfl
@[simp] theorem State.setEngine_status (e : EngineId) (g : Engine e.width) : (s.setEngine e g).status = s.status := by
  cases e <;> rfl
@[simp] theorem State.setEngine_fcmd (e : EngineId) (g : Engine e.width) : (s.setEngine e g).fcmd = s.fcmd := by
  cases e <;> rfl
@[simp] theorem State.setEngine_fopa (e : EngineId) (g : Engine e.width) : (s.setEngine e g).fopa = s.fopa := by
  cases e <;> rfl
@[simp] theorem State.setEngine_cw (e : EngineId) (g : Engine e.width) : (s.setEngine e g).cw = s.cw := by
  cases e <;> rfl
@[simp] theorem State.setEngine_opa (e : EngineId) (g : Engine e.width) : (s.setEngine e g).opa = s.opa := by
  cases e <;> rfl
@[simp] theorem State.setEngine_params (e : EngineId) (g : Engine e.width) : (s.setEngine e g).params = s.params := by
  cases e <;> rfl
@[simp] theorem State.setEngine_hostIn (e : EngineId) (g : Engine e.width) : (s.setEngine e g).hostIn = s.hostIn := by
  cases e <;> rfl
@[simp] theorem State.setEngine_entropyIn (e : EngineId) (g : Engine e.width) : (s.setEngine e g).entropyIn = s.entropyIn := by
  cases e <;> rfl
@[simp] theorem State.setEngine_entropyDraws (e : EngineId) (g : Engine e.width) : (s.setEngine e g).entropyDraws = s.entropyDraws := by
  cases e <;> rfl

/-! ## writeRes -/

@[simp] theorem State.writeRes_engine (v : Word64) (e : EngineId) : (s.writeRes v).engine e = s.engine e := by cases e <;> rfl
@[simp] theorem State.writeRes_mt32 (v : Word64) : (s.writeRes v).mt32 = s.mt32 := rfl
@[simp] theorem State.writeRes_mt64 (v : Word64) : (s.writeRes v).mt64 = s.mt64 := rfl
@[simp] theorem State.writeRes_res (v : Word64) : (s.writeRes v).res = v := rfl
@[simp] theorem State.writeRes_resValid (v : Word64) : (s.writeRes v).resValid = true := rfl
@[simp] theorem State.writeRes_status (v : Word64) : (s.writeRes v).status = s.status := rfl
@[simp] theorem State.writeRes_fcmd (v : Word64) : (s.writeRes v).fcmd = s.fcmd := rfl
@[simp] theorem State.writeRes_fopa (v : Word64) : (s.writeRes v).fopa = s.fopa := rfl
@[simp] theorem State.writeRes_cw (v : Word64) : (s.writeRes v).cw = s.cw := rfl
@[simp] theorem State.writeRes_opa (v : Word64) : (s.writeRes v).opa = s.opa := rfl
@[simp] theorem State.writeRes_params (v : Word64) : (s.writeRes v).params = s.params := rfl
@[simp] theorem State.writeRes_hostIn (v : Word64) : (s.writeRes v).hostIn = s.hostIn := rfl
@[simp] theorem State.writeRes_entropyIn (v : Word64) : (s.writeRes v).entropyIn = s.entropyIn := rfl
@[simp] theorem State.writeRes_entropyDraws (v : Word64) : (s.writeRes v).entropyDraws = s.entropyDraws := rfl

/-! ## raiseFault -/

@[simp] theorem State.raiseFault_engine (c : FaultCode) (e : EngineId) : (s.raiseFault c).engine e = s.engine e := by cases e <;> rfl
@[simp] theorem State.raiseFault_mt32 (c : FaultCode) : (s.raiseFault c).mt32 = s.mt32 := rfl
@[simp] theorem State.raiseFault_mt64 (c : FaultCode) : (s.raiseFault c).mt64 = s.mt64 := rfl
@[simp] theorem State.raiseFault_res (c : FaultCode) : (s.raiseFault c).res = s.res := rfl
@[simp] theorem State.raiseFault_resValid (c : FaultCode) : (s.raiseFault c).resValid = s.resValid := rfl
@[simp] theorem State.raiseFault_status (c : FaultCode) : (s.raiseFault c).status = statusAfterFault s.status c := rfl
@[simp] theorem State.raiseFault_fcmd (c : FaultCode) : (s.raiseFault c).fcmd = s.cw := rfl
@[simp] theorem State.raiseFault_fopa (c : FaultCode) : (s.raiseFault c).fopa = s.opa := rfl
@[simp] theorem State.raiseFault_cw (c : FaultCode) : (s.raiseFault c).cw = s.cw := rfl
@[simp] theorem State.raiseFault_opa (c : FaultCode) : (s.raiseFault c).opa = s.opa := rfl
@[simp] theorem State.raiseFault_params (c : FaultCode) : (s.raiseFault c).params = s.params := rfl
@[simp] theorem State.raiseFault_hostIn (c : FaultCode) : (s.raiseFault c).hostIn = s.hostIn := rfl
@[simp] theorem State.raiseFault_entropyIn (c : FaultCode) : (s.raiseFault c).entropyIn = s.entropyIn := rfl
@[simp] theorem State.raiseFault_entropyDraws (c : FaultCode) : (s.raiseFault c).entropyDraws = s.entropyDraws := rfl

/-! ## capture -/

@[simp] theorem State.capture_engine (c : Command) (e : EngineId) : (s.capture c).engine e = s.engine e := by cases e <;> rfl
@[simp] theorem State.capture_mt32 (c : Command) : (s.capture c).mt32 = s.mt32 := rfl
@[simp] theorem State.capture_mt64 (c : Command) : (s.capture c).mt64 = s.mt64 := rfl
@[simp] theorem State.capture_res (c : Command) : (s.capture c).res = s.res := rfl
@[simp] theorem State.capture_resValid (c : Command) : (s.capture c).resValid = s.resValid := rfl
@[simp] theorem State.capture_status (c : Command) : (s.capture c).status = s.status := rfl
@[simp] theorem State.capture_fcmd (c : Command) : (s.capture c).fcmd = s.fcmd := rfl
@[simp] theorem State.capture_fopa (c : Command) : (s.capture c).fopa = s.fopa := rfl
@[simp] theorem State.capture_cw (c : Command) : (s.capture c).cw = c.cw := rfl
@[simp] theorem State.capture_opa (c : Command) : (s.capture c).opa = c.opa := rfl
@[simp] theorem State.capture_params (c : Command) : (s.capture c).params = s.params := rfl
@[simp] theorem State.capture_hostIn (c : Command) : (s.capture c).hostIn = s.hostIn := rfl
@[simp] theorem State.capture_entropyIn (c : Command) : (s.capture c).entropyIn = s.entropyIn := rfl
@[simp] theorem State.capture_entropyDraws (c : Command) : (s.capture c).entropyDraws = s.entropyDraws := rfl

/-! ## setHostIn -/

@[simp] theorem State.setHostIn_engine (rest : List HostInput) (e : EngineId) : (s.setHostIn rest).engine e = s.engine e := by cases e <;> rfl
@[simp] theorem State.setHostIn_mt32 (rest : List HostInput) : (s.setHostIn rest).mt32 = s.mt32 := rfl
@[simp] theorem State.setHostIn_mt64 (rest : List HostInput) : (s.setHostIn rest).mt64 = s.mt64 := rfl
@[simp] theorem State.setHostIn_res (rest : List HostInput) : (s.setHostIn rest).res = s.res := rfl
@[simp] theorem State.setHostIn_resValid (rest : List HostInput) : (s.setHostIn rest).resValid = s.resValid := rfl
@[simp] theorem State.setHostIn_status (rest : List HostInput) : (s.setHostIn rest).status = s.status := rfl
@[simp] theorem State.setHostIn_fcmd (rest : List HostInput) : (s.setHostIn rest).fcmd = s.fcmd := rfl
@[simp] theorem State.setHostIn_fopa (rest : List HostInput) : (s.setHostIn rest).fopa = s.fopa := rfl
@[simp] theorem State.setHostIn_cw (rest : List HostInput) : (s.setHostIn rest).cw = s.cw := rfl
@[simp] theorem State.setHostIn_opa (rest : List HostInput) : (s.setHostIn rest).opa = s.opa := rfl
@[simp] theorem State.setHostIn_params (rest : List HostInput) : (s.setHostIn rest).params = s.params := rfl
@[simp] theorem State.setHostIn_hostIn (rest : List HostInput) : (s.setHostIn rest).hostIn = rest := rfl
@[simp] theorem State.setHostIn_entropyIn (rest : List HostInput) : (s.setHostIn rest).entropyIn = s.entropyIn := rfl
@[simp] theorem State.setHostIn_entropyDraws (rest : List HostInput) : (s.setHostIn rest).entropyDraws = s.entropyDraws := rfl

/-! ## assertReset -/

-- the engines after assertReset are stated by their fields
@[simp] theorem State.assertReset_mt32 : (s.assertReset).mt32 = Engine.reset 32 constsMt32.n s.params.kmax := rfl
@[simp] theorem State.assertReset_mt64 : (s.assertReset).mt64 = Engine.reset 64 constsMt64.n s.params.kmax := rfl
@[simp] theorem State.assertReset_res : (s.assertReset).res = 0 := rfl
@[simp] theorem State.assertReset_resValid : (s.assertReset).resValid = false := rfl
@[simp] theorem State.assertReset_status : (s.assertReset).status = 0x00000002 := rfl
@[simp] theorem State.assertReset_fcmd : (s.assertReset).fcmd = 0 := rfl
@[simp] theorem State.assertReset_fopa : (s.assertReset).fopa = 0 := rfl
@[simp] theorem State.assertReset_cw : (s.assertReset).cw = 0 := rfl
@[simp] theorem State.assertReset_opa : (s.assertReset).opa = 0 := rfl
@[simp] theorem State.assertReset_params : (s.assertReset).params = s.params := rfl
@[simp] theorem State.assertReset_hostIn : (s.assertReset).hostIn = s.hostIn := rfl
@[simp] theorem State.assertReset_entropyIn : (s.assertReset).entropyIn = s.entropyIn := rfl
@[simp] theorem State.assertReset_entropyDraws : (s.assertReset).entropyDraws = s.entropyDraws := rfl

/-! ## afterEntropy -/

@[simp] theorem State.afterEntropy_engine (e : EngineId) : s.afterEntropy.engine e = s.engine e := by
  cases e <;> (unfold State.afterEntropy; split <;> rfl)
@[simp] theorem State.afterEntropy_mt32 : s.afterEntropy.mt32 = s.mt32 := by
  unfold State.afterEntropy; split <;> rfl
@[simp] theorem State.afterEntropy_mt64 : s.afterEntropy.mt64 = s.mt64 := by
  unfold State.afterEntropy; split <;> rfl
@[simp] theorem State.afterEntropy_res : s.afterEntropy.res = s.res := by
  unfold State.afterEntropy; split <;> rfl
@[simp] theorem State.afterEntropy_resValid : s.afterEntropy.resValid = s.resValid := by
  unfold State.afterEntropy; split <;> rfl
@[simp] theorem State.afterEntropy_status : s.afterEntropy.status = s.status := by
  unfold State.afterEntropy; split <;> rfl
@[simp] theorem State.afterEntropy_fcmd : s.afterEntropy.fcmd = s.fcmd := by
  unfold State.afterEntropy; split <;> rfl
@[simp] theorem State.afterEntropy_fopa : s.afterEntropy.fopa = s.fopa := by
  unfold State.afterEntropy; split <;> rfl
@[simp] theorem State.afterEntropy_cw : s.afterEntropy.cw = s.cw := by
  unfold State.afterEntropy; split <;> rfl
@[simp] theorem State.afterEntropy_opa : s.afterEntropy.opa = s.opa := by
  unfold State.afterEntropy; split <;> rfl
@[simp] theorem State.afterEntropy_params : s.afterEntropy.params = s.params := by
  unfold State.afterEntropy; split <;> rfl
@[simp] theorem State.afterEntropy_hostIn : s.afterEntropy.hostIn = s.hostIn := by
  unfold State.afterEntropy; split <;> rfl

/-! ## How the updates pass one another -/

/-- Using up an entropy answer and replacing an engine commute: the entropy port is no part of an engine (R41). -/
theorem State.afterEntropy_setEngine (e : EngineId) (g : Engine e.width) :
    (s.setEngine e g).afterEntropy = s.afterEntropy.setEngine e g := by
  simp only [State.afterEntropy, State.setEngine_entropyIn, State.setEngine_entropyDraws]
  split <;> cases e <;> rfl
@[simp] theorem State.entropyAnswer_setEngine (e : EngineId) (g : Engine e.width) :
    (s.setEngine e g).entropyAnswer = s.entropyAnswer := by
  simp only [State.entropyAnswer, State.setEngine_entropyIn, State.setEngine_entropyDraws]
theorem State.writeRes_setEngine (e : EngineId) (g : Engine e.width) (v : Word64) :
    (s.setEngine e g).writeRes v = (s.writeRes v).setEngine e g := by cases e <;> rfl

/-- A state is its two engines and its other fields. -/
theorem State.ext_engines {s t : State} (h : ∀ e, t.engine e = s.engine e)
    (hres : t.res = s.res) (hval : t.resValid = s.resValid) (hst : t.status = s.status) (hfc : t.fcmd = s.fcmd)
    (hfo : t.fopa = s.fopa) (hcw : t.cw = s.cw) (hop : t.opa = s.opa) (hpa : t.params = s.params)
    (hho : t.hostIn = s.hostIn) (hei : t.entropyIn = s.entropyIn) (hed : t.entropyDraws = s.entropyDraws) : t = s := by
  have h32 : t.mt32 = s.mt32 := h .mt32
  have h64 : t.mt64 = s.mt64 := h .mt64
  cases s; cases t; simp_all

/-! ## Engine updates -/

variable {w : Nat} (k : Consts w) (g : Engine w)

@[simp] theorem Engine.scalarSeed_buf (x : Word64) : (g.scalarSeed k x).buf = scalarWords k x := rfl
@[simp] theorem Engine.scalarSeed_remaining (x : Word64) : (g.scalarSeed k x).remaining = 1 := rfl
@[simp] theorem Engine.scalarSeed_cursor (x : Word64) : (g.scalarSeed k x).cursor = g.cursor := rfl
@[simp] theorem Engine.scalarSeed_seeded (x : Word64) : (g.scalarSeed k x).seeded = true := rfl
@[simp] theorem Engine.scalarSeed_key (x : Word64) : (g.scalarSeed k x).key = g.key := rfl
@[simp] theorem Engine.scalarSeed_klen (x : Word64) : (g.scalarSeed k x).klen = g.klen := rfl
@[simp] theorem Engine.arraySeed_buf (key : List (BitVec w)) : (g.arraySeed k key).buf = arrayWords k key := rfl
@[simp] theorem Engine.arraySeed_remaining (key : List (BitVec w)) : (g.arraySeed k key).remaining = 1 := rfl
@[simp] theorem Engine.arraySeed_cursor (key : List (BitVec w)) : (g.arraySeed k key).cursor = g.cursor := rfl
@[simp] theorem Engine.arraySeed_seeded (key : List (BitVec w)) : (g.arraySeed k key).seeded = true := rfl
@[simp] theorem Engine.arraySeed_key (key : List (BitVec w)) : (g.arraySeed k key).key = g.key := rfl
@[simp] theorem Engine.arraySeed_klen (key : List (BitVec w)) : (g.arraySeed k key).klen = g.klen := rfl
@[simp] theorem Engine.keyClear_buf : (g.keyClear).buf = g.buf := rfl
@[simp] theorem Engine.keyClear_remaining : (g.keyClear).remaining = g.remaining := rfl
@[simp] theorem Engine.keyClear_cursor : (g.keyClear).cursor = g.cursor := rfl
@[simp] theorem Engine.keyClear_seeded : (g.keyClear).seeded = g.seeded := rfl
@[simp] theorem Engine.keyClear_key : (g.keyClear).key = g.key := rfl
@[simp] theorem Engine.keyClear_klen : (g.keyClear).klen = 0 := rfl
@[simp] theorem Engine.withDefaultSeed_of_seeded (h : g.seeded = true) : g.withDefaultSeed k = g := by
  simp [Engine.withDefaultSeed, h]
@[simp] theorem Engine.withDefaultSeed_of_not_seeded (h : g.seeded = false) :
    g.withDefaultSeed k = g.scalarSeed k seedDefault := by simp [Engine.withDefaultSeed, h]
@[simp] theorem Engine.withDefaultSeed_seeded : (g.withDefaultSeed k).seeded = true := by
  unfold Engine.withDefaultSeed; split <;> simp_all
@[simp] theorem Engine.withDefaultSeed_key : (g.withDefaultSeed k).key = g.key := by
  unfold Engine.withDefaultSeed; split <;> rfl
@[simp] theorem Engine.withDefaultSeed_klen : (g.withDefaultSeed k).klen = g.klen := by
  unfold Engine.withDefaultSeed; split <;> rfl
@[simp] theorem Engine.regenerate_buf : (g.regenerate k).buf = twistWords k (g.withDefaultSeed k).buf := rfl
@[simp] theorem Engine.regenerate_remaining : (g.regenerate k).remaining = k.n := rfl
@[simp] theorem Engine.regenerate_cursor : (g.regenerate k).cursor = 0 := rfl
@[simp] theorem Engine.regenerate_seeded : (g.regenerate k).seeded = true := by simp [Engine.regenerate]
@[simp] theorem Engine.regenerate_key : (g.regenerate k).key = g.key := by simp [Engine.regenerate]
@[simp] theorem Engine.regenerate_klen : (g.regenerate k).klen = g.klen := by simp [Engine.regenerate]

end Sys2Proof.Machine
end

