-- ==== Sys2Proof/Laws/Generator.lean ====
section
/-! SUPPORT. One lemma per procedure of Machine/Generator.lean: the length and the words of the buffers it makes, and what an
extraction does to an engine. -/

namespace Sys2Proof.Machine

variable {w : Nat} (k : Consts w)

/-! ## ScalarSeed -/

@[simp] theorem seedWordsFrom_length (p : BitVec w) (j count : Nat) : (seedWordsFrom k p j count).length = count := by
  induction count generalizing p j with
  | zero => rfl
  | succ count ih => simp [seedWordsFrom, ih]

@[simp] theorem scalarWords_length (s : Word64) (h : 1 ≤ k.n) : (scalarWords k s).length = k.n := by
  simp [scalarWords]; omega

/-- Each word of the scalar seed is made from the one before it (R120). -/
theorem seedWordsFrom_getD (p : BitVec w) (j count i : Nat) (h : i < count) :
    (seedWordsFrom k p j count).getD i 0 =
      seedWord k (if i = 0 then p else (seedWordsFrom k p j count).getD (i - 1) 0) (j + i) := by
  induction count generalizing p j i with
  | zero => omega
  | succ count ih =>
    cases i with
    | zero => simp [seedWordsFrom]
    | succ i =>
      have := ih (seedWord k p j) (j + 1) i (by omega)
      simp only [seedWordsFrom, List.getD_cons_succ, Nat.add_one_ne_zero, if_false, Nat.add_sub_cancel]
      rw [this]
      cases i with
      | zero => simp
      | succ i => simp [Nat.add_comm, Nat.add_left_comm]

theorem scalarWords_zero (s : Word64) : (scalarWords k s).getD 0 0 = s.setWidth w := rfl

theorem scalarWords_succ (s : Word64) (i : Nat) (h : i + 1 < k.n) :
    (scalarWords k s).getD (i + 1) 0 = seedWord k ((scalarWords k s).getD i 0) (i + 1) := by
  simp only [scalarWords, List.getD_cons_succ]
  rw [seedWordsFrom_getD k _ _ _ _ (by omega)]
  cases i with
  | zero => simp
  | succ i => simp [Nat.add_comm, Nat.add_left_comm]

/-! ## The sweep -/

theorem twistBlock_length (xs taps : List (BitVec w)) :
    (twistBlock k xs taps).length = min (xs.length - 1) taps.length := by
  induction taps generalizing xs with
  | nil => cases xs with
    | nil => simp [twistBlock]
    | cons x xs => cases xs <;> simp [twistBlock]
  | cons t ts ih =>
    match xs with
    | [] => simp [twistBlock]
    | [x] => simp [twistBlock]
    | x :: y :: xs => simp [twistBlock, ih]

theorem twistBlock_getD (xs taps : List (BitVec w)) (i : Nat) (h1 : i + 1 < xs.length) (h2 : i < taps.length) :
    (twistBlock k xs taps).getD i 0 = twistWord k (xs.getD i 0) (xs.getD (i + 1) 0) (taps.getD i 0) := by
  induction taps generalizing xs i with
  | nil => simp at h2
  | cons t ts ih =>
    match xs, i with
    | [], _ => simp at h1
    | [x], _ => simp at h1
    | x :: y :: xs, 0 => simp [twistBlock]
    | x :: y :: xs, i + 1 =>
      simp only [twistBlock, List.getD_cons_succ]
      exact ih (y :: xs) i (by simpa using h1) (by simpa using h2)

theorem twistBlocks_short (fuel : Nat) (xs taps : List (BitVec w)) (h : xs.length ≤ 1) :
    twistBlocks k fuel xs taps = [] := by
  induction fuel generalizing xs taps with
  | zero => rfl
  | succ fuel ih =>
    have hb : twistBlock k xs taps = [] := List.eq_nil_of_length_eq_zero (by rw [twistBlock_length]; omega)
    simp only [twistBlocks, hb, List.nil_append]
    exact ih _ _ (by simp; omega)

theorem twistBlocks_length (fuel : Nat) (xs taps : List (BitVec w)) (hx : xs.length ≤ fuel + 1) (ht : taps ≠ []) :
    (twistBlocks k fuel xs taps).length = xs.length - 1 := by
  induction fuel generalizing xs taps with
  | zero => simp [twistBlocks]; omega
  | succ fuel ih =>
    have htl : 1 ≤ taps.length := List.length_pos_iff.mpr ht
    by_cases hs : xs.length ≤ 1
    · rw [twistBlocks_short k _ _ _ hs]; simp; omega
    · have hb := twistBlock_length k xs taps
      simp only [twistBlocks, List.length_append, hb]
      by_cases hl : xs.length - 1 ≤ taps.length
      · rw [twistBlocks_short k _ _ _ (by simp; omega)]; simp; omega
      · rw [ih _ _ (by simp; omega) (by intro h0; rw [h0] at hb; simp at hb; omega)]
        simp; omega

/-- Every word of the sweep: its tap is an old word first, and a new word of the same sweep from then on. -/
theorem twistBlocks_getD (fuel : Nat) (xs taps : List (BitVec w)) (hx : xs.length ≤ fuel + 1) (ht : taps ≠ [])
    (i : Nat) (hi : i + 1 < xs.length) :
    (twistBlocks k fuel xs taps).getD i 0 = twistWord k (xs.getD i 0) (xs.getD (i + 1) 0)
      (if i < taps.length then taps.getD i 0 else (twistBlocks k fuel xs taps).getD (i - taps.length) 0) := by
  induction fuel generalizing xs taps i with
  | zero => omega
  | succ fuel ih =>
    have htl : 1 ≤ taps.length := List.length_pos_iff.mpr ht
    have hb := twistBlock_length k xs taps
    simp only [twistBlocks]
    by_cases hit : i < taps.length
    · rw [List.getD_append _ _ _ _ (by omega), twistBlock_getD k xs taps i hi hit]
      simp [hit]
    · have hbl : (twistBlock k xs taps).length = taps.length := by omega
      have hbn : twistBlock k xs taps ≠ [] := by intro h0; rw [h0] at hbl; simp at hbl; omega
      rw [List.getD_append_right _ _ _ _ (by omega), hbl]
      rw [ih _ _ (by rw [List.length_drop]; omega) hbn (i - taps.length) (by rw [List.length_drop]; omega)]
      simp only [hit, if_false, hbl]
      have e0 : taps.length + (i - taps.length) = i := by omega
      have e1 : taps.length + (i - taps.length + 1) = i + 1 := by omega
      congr 1
      · simp only [List.getD_eq_getElem?_getD, List.getElem?_drop, e0]
      · simp only [List.getD_eq_getElem?_getD, List.getElem?_drop, e1]
      · by_cases h2 : i - taps.length < taps.length
        · rw [if_pos h2, List.getD_append _ _ _ _ (by omega)]
        · rw [if_neg h2, List.getD_append_right _ _ _ _ (by omega), hbl]

theorem twistWords_length (b : List (BitVec w)) (hb : b.length = k.n) (hm : k.m < k.n) :
    (twistWords k b).length = k.n := by
  unfold twistWords
  rw [twistBlocks_length k _ _ _ (by simp [hb]) (by intro h; have := congrArg List.length h; simp at this; omega)]
  simp [hb]

/-- The words of one sweep (R160, R163). -/
theorem twistWords_getD (b : List (BitVec w)) (hb : b.length = k.n) (hm : k.m < k.n) (hn : 2 ≤ k.n) (i : Nat)
    (hi : i < k.n) :
    (twistWords k b).getD i 0 = twistWord k (b.getD i 0)
      (if i + 1 < k.n then b.getD (i + 1) 0 else (twistWords k b).getD 0 0)
      (if i < k.n - k.m then b.getD (i + k.m) 0 else (twistWords k b).getD (i - (k.n - k.m)) 0) := by
  have ht : b.drop k.m ≠ [] := by intro h; have := congrArg List.length h; simp at this; omega
  have htl : (b.drop k.m).length = k.n - k.m := by simp [hb]
  have key := fun i hi => twistBlocks_getD k k.n
    (b ++ [twistWord k (b.getD 0 0) (b.getD 1 0) (b.getD k.m 0)]) (b.drop k.m) (by simp [hb]) ht i hi
  have h0 : (twistWords k b).getD 0 0 = twistWord k (b.getD 0 0) (b.getD 1 0) (b.getD k.m 0) := by
    unfold twistWords
    rw [key 0 (by simp [hb]; omega), if_pos (by omega), List.getD_append _ _ _ _ (by omega),
      List.getD_append _ _ _ _ (by omega)]
    simp [List.getD_eq_getElem?_getD, List.getElem?_drop]
  rw [h0]
  unfold twistWords
  rw [key i (by simp [hb]; omega), htl, List.getD_append _ _ _ _ (by omega)]
  congr 1
  · by_cases h : i + 1 < k.n
    · rw [if_pos h, List.getD_append _ _ _ _ (by omega)]
    · rw [if_neg h, List.getD_append_right _ _ _ _ (by omega)]
      have : i + 1 - b.length = 0 := by omega
      simp [this]
  · simp [List.getD_eq_getElem?_getD, List.getElem?_drop, Nat.add_comm]

/-! ## ArraySeed -/

/-- The shape of a mixing pass's position: `done` and `todo` share out `buf[1..N-1]`, and `todo` is never empty. -/
abbrev Mix.Shape (n : Nat) (m : Mix w) : Prop :=
  m.done.length + m.todo.length + 1 = n ∧ m.todo ≠ [] ∧ m.i = m.done.length + 1

theorem Mix.write_shape {n : Nat} {m : Mix w} (h : m.Shape n) (v : BitVec w) : (m.write v).Shape n := by
  obtain ⟨hl, ht, hi⟩ := h
  match htodo : m.todo with
  | [] => exact absurd htodo ht
  | [x] =>
    rw [htodo] at hl
    simp only [Mix.write, htodo, List.tail_cons, Mix.Shape]
    refine ⟨by simp at hl ⊢; omega, by simp, by simp⟩
  | x :: y :: rest =>
    rw [htodo] at hl
    simp only [Mix.write, htodo, List.tail_cons, Mix.Shape]
    refine ⟨by simp at hl ⊢; omega, by simp, by simp [hi]⟩

theorem forwardPass_shape {n : Nat} (key : List (BitVec w)) (count : Nat) (keyRest : List (BitVec w)) (j : Nat)
    {m : Mix w} (h : m.Shape n) : (forwardPass k key count keyRest j m).Shape n := by
  induction count generalizing keyRest j m with
  | zero => exact h
  | succ count ih =>
    simp only [forwardPass]
    split <;> exact ih _ _ (Mix.write_shape h _)

theorem reversePass_shape {n : Nat} (count : Nat) {m : Mix w} (h : m.Shape n) : (reversePass k count m).Shape n := by
  induction count generalizing m with
  | zero => exact h
  | succ count ih => exact ih (Mix.write_shape h _)

theorem arrayWords_length (key : List (BitVec w)) (hn : 2 ≤ k.n) : (arrayWords k key).length = k.n := by
  have hs := scalarWords_length k seedBase (by omega)
  have h0 : Mix.Shape k.n
      ({ prev := (scalarWords k seedBase).headD 0, done := [], todo := (scalarWords k seedBase).tail, i := 1 } : Mix w) := by
    refine ⟨by simp [hs]; omega, ?_, rfl⟩
    intro h
    have := congrArg List.length h
    simp [hs] at this
    omega
  have h := reversePass_shape k (k.n - 1)
    (forwardPass_shape k key (max k.n key.length) key 0 h0)
  simp only [arrayWords, List.length_cons, List.length_append, List.length_reverse]
  exact h.1

theorem arrayWords_zero (key : List (BitVec w)) : (arrayWords k key).getD 0 0 = 1#w <<< (w - 1) := rfl

/-! ## Extraction -/

/-- The constants R6 gives are in range: M < N, and N is at least 2. -/
theorem consts_range (e : EngineId) : e.consts.m < e.consts.n ∧ 2 ≤ e.consts.n ∧ 1 ≤ e.consts.m := by
  cases e <;> decide

variable {k}

theorem Engine.refill_of_two_le {g : Engine w} (h : 2 ≤ g.remaining) :
    g.refill k = { g with remaining := g.remaining - 1 } := by
  have : g.remaining - 1 ≠ 0 := by omega
  simp [Engine.refill, this]

theorem Engine.refill_of_one {g : Engine w} (h : g.remaining = 1) :
    g.refill k = { g with remaining := 0 }.regenerate k := by simp [Engine.refill, h]

@[simp] theorem Engine.refill_key (g : Engine w) : (g.refill k).key = g.key := by
  simp only [Engine.refill]; split <;> simp
@[simp] theorem Engine.refill_klen (g : Engine w) : (g.refill k).klen = g.klen := by
  simp only [Engine.refill]; split <;> simp

theorem Engine.withDefaultSeed_buf_length {g : Engine w} (hb : g.buf.length = k.n) (hn : 1 ≤ k.n) :
    (g.withDefaultSeed k).buf.length = k.n := by
  unfold Engine.withDefaultSeed; split
  · exact hb
  · simp [hn]

/-- What stands after the first two lines of R180: `cursor` names a word, and `cursor + remaining` = N. -/
theorem Engine.refill_ready {kmax : Nat} {g : Engine w} (h : g.Inv k kmax) (hm : k.m < k.n) :
    (g.refill k).buf.length = k.n ∧ (g.refill k).cursor + (g.refill k).remaining = k.n ∧
    (g.refill k).cursor < k.n ∧ (g.refill k).seeded = true := by
  obtain ⟨hb, h1, hn, hc, hp, hs, -, -⟩ := h
  by_cases hr : g.remaining = 1
  · rw [Engine.refill_of_one hr]
    refine ⟨?_, by simp, by simp; omega, by simp⟩
    exact twistWords_length k _ (Engine.withDefaultSeed_buf_length hb (by omega)) hm
  · rw [Engine.refill_of_two_le (by omega)]
    refine ⟨hb, ?_, ?_, ?_⟩
    · simp only; omega
    · simp only; omega
    · simp only
      cases hsd : g.seeded with
      | true => rfl
      | false => exact absurd (hs hsd) hr

/-- An extraction on an engine that satisfies the invariant takes the word under `cursor` (R180). -/
theorem Engine.extractRaw_of_inv {kmax : Nat} {g : Engine w} (h : g.Inv k kmax) (hm : k.m < k.n) :
    g.extractRaw k = .ok (loopRead (g.refill k).buf (g.refill k).cursor,
      { g.refill k with cursor := (g.refill k).cursor + 1 }) := by
  obtain ⟨hl, -, hc, -⟩ := Engine.refill_ready h hm
  have hg : (g.refill k).buf[(g.refill k).cursor]? = some ((g.refill k).buf.getD (g.refill k).cursor 0) := by
    rw [List.getD_eq_getElem?_getD, List.getElem?_eq_getElem (by omega)]; rfl
  simp only [Engine.extractRaw, readBuf, hc, hg, if_true, loopRead]

/-- The engine after an extraction satisfies the invariant again, and is primed (R35). -/
theorem Engine.inv_afterExtract {kmax : Nat} {g : Engine w} (h : g.Inv k kmax) (hm : k.m < k.n) :
    Engine.Inv k kmax { g.refill k with cursor := (g.refill k).cursor + 1 } := by
  obtain ⟨hl, hcr, hc, hs⟩ := Engine.refill_ready h hm
  obtain ⟨-, -, -, -, -, -, hk, hkl⟩ := h
  refine ⟨hl, ?_, ?_, ?_, Or.inr ?_, ?_, ?_, ?_⟩
  · exact (by omega : 1 ≤ (g.refill k).remaining)
  · exact (by omega : (g.refill k).remaining ≤ k.n)
  · exact (by omega : (g.refill k).cursor + 1 ≤ k.n)
  · exact (by omega : (g.refill k).cursor + 1 + (g.refill k).remaining = k.n + 1)
  · intro h; rw [show (g.refill k).seeded = false from h] at hs; cases hs
  · exact (congrArg List.length (Engine.refill_key g)).trans hk
  · exact (Engine.refill_klen (k := k) g).symm ▸ hkl

/-- What one extraction can answer: the word and the engine R180 names, or the internal index fault. -/
theorem Engine.extractRaw_cases {g g' : Engine w} {y : BitVec w} (h : g.extractRaw k = .ok (y, g')) :
    y = loopRead (g.refill k).buf (g.refill k).cursor ∧ (g.refill k).cursor < k.n ∧
    g' = { g.refill k with cursor := (g.refill k).cursor + 1 } := by
  simp only [Engine.extractRaw, readBuf] at h
  split at h
  · rename_i y' hy
    split at hy
    · rename_i hlt
      split at hy
      · rename_i v hv
        simp only [Except.ok.injEq, Prod.mk.injEq] at h hy
        refine ⟨?_, hlt, h.2.symm⟩
        rw [← h.1, ← hy, loopRead, List.getD_eq_getElem?_getD, hv]; rfl
      · cases hy
    · cases hy
  · cases h

/-- Discarding words keeps the invariant and never stops (R208). -/
theorem Engine.discard_of_inv {kmax : Nat} (hm : k.m < k.n) (c : Nat) {g : Engine w} (h : g.Inv k kmax) :
    g.discard k c = .ok ((fun g => { g.refill k with cursor := (g.refill k).cursor + 1 })^[c] g) ∧
    Engine.Inv k kmax ((fun g => { g.refill k with cursor := (g.refill k).cursor + 1 })^[c] g) := by
  induction c generalizing g with
  | zero => exact ⟨rfl, h⟩
  | succ c ih =>
    have := ih (Engine.inv_afterExtract h hm)
    simp only [Engine.discard, Engine.extractRaw_of_inv h hm, Function.iterate_succ_apply]
    exact this

/-! ## The key store and the seeds -/

theorem Engine.inv_keyAppend {kmax : Nat} {g g' : Engine w} {v : BitVec w} (h : g.Inv k kmax)
    (hg : g.keyAppend v = .ok g') : g'.Inv k kmax := by
  obtain ⟨hb, h1, hn, hc, hp, hs, hk, hkl⟩ := h
  simp only [Engine.keyAppend] at hg
  split at hg
  · injection hg with hg
    subst hg
    exact ⟨hb, h1, hn, hc, hp, hs, by simpa using hk, by simp only; omega⟩
  · cases hg

theorem Engine.inv_scalarSeed {kmax : Nat} {g : Engine w} (h : g.Inv k kmax) (s : Word64) :
    (g.scalarSeed k s).Inv k kmax := by
  obtain ⟨hb, h1, hn, hc, hp, hs, hk, hkl⟩ := h
  exact ⟨by simp; rw [scalarWords_length]; omega, by simp, by simp; omega, by simpa using hc, by simp, by simp, by simpa using hk, by simpa using hkl⟩

theorem Engine.inv_arraySeed {kmax : Nat} {g : Engine w} (h : g.Inv k kmax) (hn2 : 2 ≤ k.n) (key : List (BitVec w)) :
    (g.arraySeed k key).Inv k kmax := by
  obtain ⟨hb, h1, hn, hc, hp, hs, hk, hkl⟩ := h
  exact ⟨by simpa using arrayWords_length k key hn2, by simp, by simp; omega, by simpa using hc, by simp, by simp, by simpa using hk, by simpa using hkl⟩

theorem Engine.inv_keyClear {kmax : Nat} {g : Engine w} (h : g.Inv k kmax) : g.keyClear.Inv k kmax := by
  obtain ⟨hb, h1, hn, hc, hp, hs, hk, hkl⟩ := h
  exact ⟨hb, h1, hn, hc, hp, hs, hk, by simp⟩

end Sys2Proof.Machine
end

