-- ==== Sys2Proof/Laws/Ops.lean ====
section
/-! SUPPORT. One lemma per shared operation of Machine/Ops.lean: everything it can answer, and what it does to the invariant. -/

namespace Sys2Proof.Machine

variable {s : State}

/-! ## The invariant and the updates -/

theorem State.Inv.engine_inv (h : s.Inv) (e : EngineId) : (s.engine e).Inv e.consts s.params.kmax := by
  cases e
  · exact h.2.1
  · exact h.2.2.1

theorem State.inv_setEngine (h : s.Inv) (e : EngineId) {g : Engine e.width}
    (hg : g.Inv e.consts s.params.kmax) : (s.setEngine e g).Inv := by
  cases e
  · exact ⟨h.1, hg, h.2.2.1, h.2.2.2⟩
  · exact ⟨h.1, h.2.1, hg, h.2.2.2⟩

theorem State.inv_writeRes (h : s.Inv) (v : Word64) : (s.writeRes v).Inv := h

theorem State.inv_capture (h : s.Inv) (c : Command) : (s.capture c).Inv := h

theorem State.inv_setHostIn (h : s.Inv) (rest : List HostInput) : (s.setHostIn rest).Inv := h

theorem State.inv_afterEntropy (h : s.Inv) : s.afterEntropy.Inv := by
  unfold State.afterEntropy; split <;> exact h

/-- Fault entry (R251) gives one of the six STATUS values again, with FAULTED = 1. -/
theorem statusAfterFault_mem {st : Word32} (h : st ∈ statusValues) (c : FaultCode) :
    statusAfterFault st c ∈ statusValues ∧ statusFaulted (statusAfterFault st c) = true ∧
    statusReady (statusAfterFault st c) = false ∧ statusFcode (statusAfterFault st c) = c.fcode := by
  simp only [statusValues, List.mem_cons, List.not_mem_nil, or_false] at h
  rcases h with rfl | rfl | rfl | rfl | rfl | rfl <;> cases c <;> decide

theorem State.inv_raiseFault (h : s.Inv) (c : FaultCode) : (s.raiseFault c).Inv := by
  obtain ⟨hp, h32, h64, hst, hf⟩ := h
  have := statusAfterFault_mem hst c
  refine ⟨hp, h32, h64, this.1, ?_⟩
  intro hff
  simp [State.faulted, this.2.1] at hff

theorem Engine.inv_reset (w n kmax : Nat) (k : Consts w) (hn : n = k.n) (h1 : 1 ≤ n) :
    (Engine.reset w n kmax).Inv k kmax := by
  subst hn
  exact ⟨by simp [Engine.reset], le_refl 1, h1, Nat.zero_le _, Or.inl rfl, fun _ => rfl, by simp [Engine.reset], Nat.zero_le _⟩

theorem State.inv_assertReset (h : s.params.wf = true) : s.assertReset.Inv :=
  ⟨h, Engine.inv_reset 32 _ _ constsMt32 rfl (by decide), Engine.inv_reset 64 _ _ constsMt64 rfl (by decide),
    by simp [statusValues], fun _ => ⟨rfl, rfl⟩⟩

/-- In a state that satisfies the invariant, READY = NOT FAULTED (R38). -/
theorem State.Inv.ready_eq (h : s.Inv) : s.ready = !s.faulted := by
  have hst := h.2.2.2.1
  simp only [statusValues, List.mem_cons, List.not_mem_nil, or_false] at hst
  unfold State.ready State.faulted
  rcases hst with h | h | h | h | h | h <;> rw [h] <;> decide

/-! ## Extraction -/

theorem State.extract_of_inv (h : s.Inv) (e : EngineId) : s.extract e = .ok (s.nextWord e, s.afterWord e) := by
  simp only [State.extract, Engine.extractRaw_of_inv (h.engine_inv e) (consts_range e).1, State.nextWord, State.afterWord]

theorem State.inv_afterWord (h : s.Inv) (e : EngineId) : (s.afterWord e).Inv :=
  State.inv_setEngine h e (Engine.inv_afterExtract (h.engine_inv e) (consts_range e).1)

/-- What Extract can answer: the word and the state of R180, or the internal index fault. -/
theorem State.extract_cases {e : EngineId} {y : BitVec e.width} {t : State} (h : s.extract e = .ok (y, t)) :
    y = s.nextWord e ∧ t = s.afterWord e := by
  simp only [State.extract] at h
  split at h
  · rename_i y' g hg
    obtain ⟨hy, -, hg'⟩ := Engine.extractRaw_cases hg
    simp only [Except.ok.injEq, Prod.mk.injEq] at h
    obtain ⟨rfl, rfl⟩ := h
    exact ⟨by rw [hy]; rfl, by rw [hg']; rfl⟩
  · cases h

/-- A command that converts one word answers the next state R180 and R37 give. -/
theorem State.convertWord_of_inv (h : s.Inv) (e : EngineId) (f : BitVec e.width → Word64) :
    s.convertWord e f = .next ((s.afterWord e).writeRes (f (s.nextWord e))) := by
  simp only [State.convertWord, State.extract_of_inv h e]

/-- What a command that converts one word can answer as its next state. -/
theorem State.convertWord_cases {e : EngineId} {f : BitVec e.width → Word64} {t : State}
    (h : s.convertWord e f = .next t) : t = (s.afterWord e).writeRes (f (s.nextWord e)) := by
  simp only [State.convertWord] at h
  split at h
  · rename_i y s' hx
    obtain ⟨rfl, rfl⟩ := State.extract_cases hx
    injection h with h; exact h.symm
  · cases h

/-- The state after c extractions on one engine is the state with that engine after c extractions. -/
theorem State.iterate_afterWord (s : State) (e : EngineId) (c : Nat) :
    (fun t : State => t.afterWord e)^[c] s = s.setEngine e
      ((fun g => { g.refill e.consts with cursor := (g.refill e.consts).cursor + 1 })^[c] (s.engine e)) := by
  induction c generalizing s with
  | zero => simp
  | succ c ih =>
    rw [Function.iterate_succ_apply, ih, Function.iterate_succ_apply]
    simp [State.afterWord]

/-- Discarding c words leaves the state that c extractions leave (R208). -/
theorem State.discardWords_of_inv (h : s.Inv) (e : EngineId) (c : Nat) :
    s.discardWords e c = .next ((fun t : State => t.afterWord e)^[c] s) := by
  simp only [State.discardWords, (Engine.discard_of_inv (consts_range e).1 c (h.engine_inv e)).1,
    State.iterate_afterWord]

/-- The count WARMUP_ENT discards is a prime below 2^64 (R209), whatever the free map gives. -/
theorem warmupCount_spec (r : Word64) : (warmupCount r).Prime ∧ warmupCount r < 2 ^ 64 := by
  unfold warmupCount
  split
  · exact ⟨(Config.warmupPrime r).prop, ‹_›⟩
  · exact ⟨Nat.prime_two, by norm_num⟩

theorem State.inv_iterate_afterWord (h : s.Inv) (e : EngineId) (c : Nat) :
    ((fun t : State => t.afterWord e)^[c] s).Inv := by
  induction c generalizing s with
  | zero => exact h
  | succ c ih => exact ih (State.inv_afterWord h e)

/-! ## What an extraction leaves alone -/

@[simp] theorem State.afterWord_engine (s : State) (e : EngineId) :
    (s.afterWord e).engine e =
      { (s.engine e).refill e.consts with cursor := ((s.engine e).refill e.consts).cursor + 1 } := by
  simp [State.afterWord]
theorem State.afterWord_engine_of_ne (s : State) {e f : EngineId} (h : f ≠ e) :
    (s.afterWord e).engine f = s.engine f := State.engine_setEngine_of_ne s h _
@[simp] theorem State.afterWord_res (s : State) (e : EngineId) : (s.afterWord e).res = s.res := by simp [State.afterWord]
@[simp] theorem State.afterWord_resValid (s : State) (e : EngineId) : (s.afterWord e).resValid = s.resValid := by
  simp [State.afterWord]
@[simp] theorem State.afterWord_status (s : State) (e : EngineId) : (s.afterWord e).status = s.status := by
  simp [State.afterWord]
@[simp] theorem State.afterWord_fcmd (s : State) (e : EngineId) : (s.afterWord e).fcmd = s.fcmd := by simp [State.afterWord]
@[simp] theorem State.afterWord_fopa (s : State) (e : EngineId) : (s.afterWord e).fopa = s.fopa := by simp [State.afterWord]
@[simp] theorem State.afterWord_params (s : State) (e : EngineId) : (s.afterWord e).params = s.params := by
  simp [State.afterWord]

end Sys2Proof.Machine
end

