-- ==== Sys2Proof/Laws/PerInstr.lean ====
section
/-! SUPPORT. What holds of each command as syntax, one lemma per constructor of Instr. -/

/-- The command word the encoder gives is one of R98's 31 exactly when the command exists on its engine (R92, R97). -/
def Sys2Proof.Laws.EncodeLegal.Statement (i : Sys2Proof.Instr) : Prop :=
  (Sys2Proof.encode i).cw ∈ Sys2Proof.legalWords ↔ i.wellFormed = true

namespace Sys2Proof.Laws.EncodeLegal

open Sys2Proof

theorem seed (e : EngineId) (opa : Word64) : Statement (.seed e opa) :=
  iff_of_true (show (encode (.seed e 0)).cw ∈ legalWords by cases e <;> decide) rfl
theorem seedEnt (e : EngineId) : Statement (.seedEnt e) :=
  iff_of_true (by cases e <;> decide) rfl
theorem keyClr (e : EngineId) : Statement (.keyClr e) :=
  iff_of_true (by cases e <;> decide) rfl
theorem keyPush (e : EngineId) (opa : Word64) : Statement (.keyPush e opa) :=
  iff_of_true (show (encode (.keyPush e 0)).cw ∈ legalWords by cases e <;> decide) rfl
theorem seedArr (e : EngineId) : Statement (.seedArr e) :=
  iff_of_true (by cases e <;> decide) rfl
theorem next (e : EngineId) : Statement (.next e) :=
  iff_of_true (by cases e <;> decide) rfl
theorem nextS (e : EngineId) : Statement (.nextS e) :=
  iff_of_true (by cases e <;> decide) rfl
theorem nextPos (e : EngineId) : Statement (.nextPos e) :=
  iff_of_true (by cases e <;> decide) rfl
theorem nextT32 (e : EngineId) : Statement (.nextT32 e) :=
  iff_of_true (by cases e <;> decide) rfl
theorem bounded (e : EngineId) (opa : Word64) : Statement (.bounded e opa) :=
  iff_of_true (show (encode (.bounded e 0)).cw ∈ legalWords by cases e <;> decide) rfl
theorem real1 (e : EngineId) : Statement (.real1 e) :=
  iff_of_true (by cases e <;> decide) rfl
theorem real2 (e : EngineId) : Statement (.real2 e) :=
  iff_of_true (by cases e <;> decide) rfl
theorem real3 (e : EngineId) : Statement (.real3 e) :=
  iff_of_true (by cases e <;> decide) rfl
/-- RES53 exists on MT32 only: 0x123 is not among R98's words. -/
theorem res53 (e : EngineId) : Statement (.res53 e) := by
  cases e <;> (unfold Statement; decide)
theorem warmup (e : EngineId) (opa : Word64) : Statement (.warmup e opa) :=
  iff_of_true (show (encode (.warmup e 0)).cw ∈ legalWords by cases e <;> decide) rfl
theorem warmupEnt (e : EngineId) : Statement (.warmupEnt e) :=
  iff_of_true (by cases e <;> decide) rfl

end Sys2Proof.Laws.EncodeLegal
end

