-- ==== Sys2Proof/Laws/Reference.lean ====
section
/-! SUPPORT. The procedures of Machine/Generator.lean give the buffers of the rules' own loops (Machine/Reference.lean). -/

namespace Sys2Proof.Machine

variable {w : Nat} (k : Consts w)

/-! ## Two list facts -/

theorem loopRead_eq_getElem {b : List (BitVec w)} {i : Nat} (h : i < b.length) : loopRead b i = b[i] := by
  simp [loopRead, h]

/-- Lists of one length whose words agree at every index are equal. -/
theorem eq_of_loopRead {a b : List (BitVec w)} (hl : a.length = b.length)
    (h : ∀ i, i < a.length → loopRead a i = loopRead b i) : a = b := by
  apply List.ext_getElem hl
  intro i h1 h2
  rw [← loopRead_eq_getElem h1, ← loopRead_eq_getElem h2]
  exact h i h1

theorem loopRead_set {b : List (BitVec w)} {i j : Nat} {v : BitVec w} (h : i < b.length) :
    loopRead (b.set i v) j = if j = i then v else loopRead b j := by
  simp only [loopRead, List.getD_eq_getElem?_getD, List.getElem?_set]
  by_cases hij : i = j
  · subst hij; simp [h]
  · simp [hij, Ne.symm hij]

/-! ## ScalarSeed -/

/-- After c passes of R120's loop, the words up to index c are the scalar seed's, and the others are as they were. -/
theorem scalarLoop_prefix (s : Word64) (b : List (BitVec w)) (hb : b.length = k.n) (c : Nat) (hc : c + 1 ≤ k.n) :
    let r := (List.range' 1 c).foldl
      (fun b j => b.set j (k.c * (loopRead b (j - 1) ^^^ (loopRead b (j - 1) >>> k.s)) + BitVec.ofNat w j))
      (b.set 0 (s.setWidth w))
    r.length = k.n ∧ ∀ i, i ≤ c → loopRead r i = loopRead (scalarWords k s) i := by
  induction c with
  | zero =>
    refine ⟨by simp [hb], ?_⟩
    intro i hi
    have : i = 0 := by omega
    subst this
    show loopRead (b.set 0 (s.setWidth w)) 0 = _
    rw [loopRead_set (show 0 < b.length by omega), if_pos rfl]
    rfl
  | succ c ih =>
    obtain ⟨hl, hw⟩ := ih (by omega)
    simp only [List.range'_concat, List.foldl_append, List.foldl_cons, List.foldl_nil]
    refine ⟨by simpa using hl, ?_⟩
    intro i hi
    rw [loopRead_set (by simp only [Nat.one_mul]; omega)]
    by_cases hic : i = 1 + 1 * c
    · rw [if_pos hic]
      have h1 := scalarWords_succ k s c (by omega)
      have h2 := hw c (le_refl c)
      have e1 : 1 + 1 * c - 1 = c := by omega
      have e2 : i = c + 1 := by omega
      rw [e1, h2, e2]
      show _ = (scalarWords k s).getD (c + 1) 0
      rw [h1, Nat.one_mul, Nat.add_comm 1 c]
      rfl
    · rw [if_neg hic]
      exact hw i (by omega)

/-- ScalarSeed gives the buffer of R120's loop. -/
theorem scalarWords_eq_scalarLoop (s : Word64) (b : List (BitVec w)) (hb : b.length = k.n) (hn : 1 ≤ k.n) :
    scalarWords k s = scalarLoop k s b := by
  obtain ⟨hl, hw⟩ := scalarLoop_prefix k s b hb (k.n - 1) (by omega)
  refine eq_of_loopRead ?_ ?_
  · rw [scalarWords_length k s hn]; exact hl.symm
  · intro i hi
    rw [scalarWords_length k s hn] at hi
    exact (hw i (by omega)).symm

/-! ## The sweep -/

/-- After j steps of R160's sweep the first j words are new and the others are as they were. -/
theorem twistLoop_prefix (b : List (BitVec w)) (hb : b.length = k.n) (hm : k.m < k.n) (hm1 : 1 ≤ k.m) (hn : 2 ≤ k.n)
    (j : Nat) (hj : j ≤ k.n) :
    ((List.range j).foldl (twistLoopStep k) b).length = k.n ∧
    ∀ i, i < k.n → loopRead ((List.range j).foldl (twistLoopStep k) b) i =
      if i < j then loopRead (twistWords k b) i else loopRead b i := by
  induction j with
  | zero => simp [hb]
  | succ j ih =>
    obtain ⟨hl, hw⟩ := ih (by omega)
    rw [List.range_succ, List.foldl_append]
    simp only [List.foldl_cons, List.foldl_nil]
    refine ⟨by simp only [twistLoopStep, List.length_set]; exact hl, ?_⟩
    intro i hi
    simp only [twistLoopStep]
    rw [loopRead_set (by omega)]
    by_cases hij : i = j
    · subst hij
      have hii : i < i + 1 := Nat.lt_succ_self i
      rw [if_pos rfl, if_pos hii]
      have key := twistWords_getD k b hb hm hn i hi
      have hx := hw i hi
      rw [if_neg (by omega)] at hx
      have hnext : loopRead ((List.range i).foldl (twistLoopStep k) b) ((i + 1) % k.n) =
          if i + 1 < k.n then b.getD (i + 1) 0 else (twistWords k b).getD 0 0 := by
        by_cases h : i + 1 < k.n
        · rw [Nat.mod_eq_of_lt h, hw _ h, if_neg (by omega), if_pos h]; rfl
        · have h2 : i + 1 = k.n := by omega
          rw [h2, Nat.mod_self, hw 0 (by omega), if_pos (by omega), if_neg (by omega)]; rfl
      have htap : loopRead ((List.range i).foldl (twistLoopStep k) b) ((i + k.m) % k.n) =
          if i < k.n - k.m then b.getD (i + k.m) 0 else (twistWords k b).getD (i - (k.n - k.m)) 0 := by
        by_cases h : i + k.m < k.n
        · rw [Nat.mod_eq_of_lt h, hw _ h, if_neg (by omega), if_pos (by omega)]; rfl
        · have h2 : (i + k.m) % k.n = i - (k.n - k.m) := by
            rw [Nat.mod_eq_sub_mod (by omega), Nat.mod_eq_of_lt (by omega)]; omega
          rw [h2, hw _ (by omega), if_pos (by omega), if_neg (by omega)]; rfl
      rw [hx, hnext, htap]
      exact key.symm
    · rw [if_neg hij, hw i hi]
      by_cases h : i < j
      · rw [if_pos h, if_pos (by omega)]
      · rw [if_neg h, if_neg (by omega)]

/-- Regeneration's sweep gives the buffer of R160's in-place sweep. -/
theorem twistWords_eq_twistLoop (b : List (BitVec w)) (hb : b.length = k.n) (hm : k.m < k.n) (hm1 : 1 ≤ k.m)
    (hn : 2 ≤ k.n) : twistWords k b = twistLoop k b := by
  obtain ⟨hl, hw⟩ := twistLoop_prefix k b hb hm hm1 hn k.n (le_refl _)
  have hlen := twistWords_length k b hb hm
  refine eq_of_loopRead (by rw [hlen]; exact hl.symm) ?_
  intro i hi
  rw [hlen] at hi
  have := hw i hi
  rw [if_pos hi] at this
  exact this.symm

/-! ## ArraySeed -/

/-- How a mixing pass's position stands for the buffer and the index of the rules' loops. -/
abbrev Mix.Stands (n : Nat) (m : Mix w) (t : LoopState w) : Prop :=
  m.Shape n ∧ t.i = m.i ∧ t.b.tail = m.done.reverse ++ m.todo ∧ t.b.length = n ∧ m.prev = loopRead t.b (t.i - 1)

/-- `Mix.write` is `buf[i] <- v`, the step of i and the wrap. -/
theorem Mix.write_stands (hn : 2 ≤ k.n) {m : Mix w} {t : LoopState w} (h : m.Stands k.n t) (v : BitVec w) (j : Nat) :
    (m.write v).Stands k.n
      { b := if k.n ≤ t.i + 1 then (t.b.set t.i v).set 0 (loopRead (t.b.set t.i v) (k.n - 1)) else t.b.set t.i v
        i := if k.n ≤ t.i + 1 then 1 else t.i + 1
        j := j } := by
  obtain ⟨⟨hl, ht, hi⟩, hti, hb, hbl, hp⟩ := h
  refine ⟨Mix.write_shape ⟨hl, ht, hi⟩ v, ?_⟩
  obtain ⟨b0, bt, hbt⟩ : ∃ b0 bt, t.b = b0 :: bt := by
    cases hc : t.b with
    | nil => rw [hc] at hbl; simp at hbl; omega
    | cons x xs => exact ⟨x, xs, rfl⟩
  rw [hbt, List.tail_cons] at hb
  have hset : ∀ (x : BitVec w) (rest : List (BitVec w)), m.todo = x :: rest →
      t.b.set t.i v = b0 :: (m.done.reverse ++ v :: rest) := by
    intro x rest hx
    rw [hbt, hti, hi, List.set_cons_succ, hb, hx, List.set_append_right _ _ (by simp)]
    simp
  match htodo : m.todo with
  | [] => exact absurd htodo ht
  | [x] =>
    have hs := hset x [] htodo
    have hlast : k.n ≤ t.i + 1 := by rw [htodo] at hl; simp at hl; omega
    have hd : m.done.length + 2 = k.n := by rw [htodo] at hl; simp at hl; omega
    simp only [Mix.write, htodo, List.tail_cons, hlast, if_true, hs]
    have hr : loopRead (b0 :: (m.done.reverse ++ [v])) (k.n - 1) = v := by
      have : k.n - 1 = m.done.length + 1 := by omega
      rw [this]
      simp [loopRead, List.getD_eq_getElem?_getD]
    refine ⟨trivial, by simp, by simp; omega, ?_⟩
    rw [hr]; rfl
  | x :: y :: rest =>
    have hs := hset x (y :: rest) htodo
    have hlast : ¬ k.n ≤ t.i + 1 := by rw [htodo] at hl; simp at hl; omega
    simp only [Mix.write, htodo, List.tail_cons, hlast, if_false, hs]
    refine ⟨by omega, by simp, ?_, ?_⟩
    · rw [htodo] at hl; simp at hl ⊢; omega
    · rw [Nat.add_sub_cancel, hti, hi]
      simp [loopRead, List.getD_eq_getElem?_getD]

theorem Mix.todo_head {n : Nat} {m : Mix w} {t : LoopState w} (h : m.Stands n t) :
    m.todo.headD 0 = loopRead t.b t.i := by
  obtain ⟨⟨hl, ht, hi⟩, hti, hb, hbl, hp⟩ := h
  obtain ⟨x, rest, hx⟩ := List.exists_cons_of_ne_nil ht
  cases hc : t.b with
  | nil => rw [hc] at hb; simp at hb; exact absurd hb.2 ht
  | cons b0 bt =>
    rw [hc, List.tail_cons] at hb
    rw [hti, hi, hb, hx]
    simp [loopRead, List.getD_eq_getElem?_getD]

theorem forwardPass_stands (hn : 2 ≤ k.n) (key : List (BitVec w)) (hk : key ≠ []) (count : Nat)
    (keyRest : List (BitVec w)) (m : Mix w) (t : LoopState w) (h : m.Stands k.n t)
    (hkr : keyRest = key.drop t.j) (hj : t.j < key.length) :
    (forwardPass k key count keyRest t.j m).Stands k.n ((forwardLoopStep k key)^[count] t) := by
  induction count generalizing keyRest m t with
  | zero => exact h
  | succ count ih =>
    rw [Function.iterate_succ_apply]
    have hhead : keyRest.headD 0 = loopRead key t.j := by
      subst hkr; simp [loopRead, List.headD_eq_head?_getD, List.head?_drop, List.getD_eq_getElem?_getD]
    have hval : m.blend k k.c2 + keyRest.headD 0 + BitVec.ofNat w t.j =
        (loopRead t.b t.i ^^^ ((loopRead t.b (t.i - 1) ^^^ (loopRead t.b (t.i - 1) >>> k.s)) * k.c2)) +
          loopRead key t.j + BitVec.ofNat w t.j := by
      rw [hhead, Mix.blend, Mix.todo_head h, h.2.2.2.2]
    have htail : keyRest.tail = key.drop (t.j + 1) := by subst hkr; simp [List.tail_drop]
    simp only [forwardPass, hval]
    have hst := Mix.write_stands k hn h
      ((loopRead t.b t.i ^^^ ((loopRead t.b (t.i - 1) ^^^ (loopRead t.b (t.i - 1) >>> k.s)) * k.c2)) +
          loopRead key t.j + BitVec.ofNat w t.j) (if key.length ≤ t.j + 1 then 0 else t.j + 1)
    by_cases hw : key.length ≤ t.j + 1
    · have : keyRest.tail = [] := by rw [htail]; exact List.drop_eq_nil_of_le hw
      rw [this]
      rw [if_pos hw] at hst
      have := ih key _ _ hst (by simp) (by simp; exact List.length_pos_iff.mpr hk)
      simp only [forwardLoopStep, if_pos hw]
      exact this
    · have hne : keyRest.tail ≠ [] := by
        rw [htail]; intro h0; have := congrArg List.length h0; simp at this; omega
      obtain ⟨q, qs, hq⟩ := List.exists_cons_of_ne_nil hne
      rw [if_neg hw] at hst
      have := ih keyRest.tail _ _ hst (by rw [htail]) (by simp; omega)
      rw [hq] at this ⊢
      simp only [forwardLoopStep, if_neg hw]
      exact this

theorem reversePass_stands (hn : 2 ≤ k.n) (count : Nat) (m : Mix w) (t : LoopState w) (h : m.Stands k.n t) :
    (reversePass k count m).Stands k.n ((reverseLoopStep k)^[count] t) := by
  induction count generalizing m t with
  | zero => exact h
  | succ count ih =>
    rw [Function.iterate_succ_apply]
    have hval : m.blend k k.c3 - BitVec.ofNat w m.i =
        (loopRead t.b t.i ^^^ ((loopRead t.b (t.i - 1) ^^^ (loopRead t.b (t.i - 1) >>> k.s)) * k.c3)) -
          BitVec.ofNat w t.i := by
      rw [Mix.blend, Mix.todo_head h, h.2.2.2.2, h.2.1]
    simp only [reversePass, hval]
    exact ih _ _ (Mix.write_stands k hn h _ t.j)

/-- ArraySeed gives the buffer of the loops of R122, R123 and R124. -/
theorem arrayWords_eq_arrayLoop (key b : List (BitVec w)) (hb : b.length = k.n) (hn : 2 ≤ k.n) (hk : key ≠ []) :
    arrayWords k key = arrayLoop k key b := by
  have hs := scalarWords_eq_scalarLoop k seedBase b hb (by omega)
  have hsl := scalarWords_length k seedBase (by omega)
  have h0 : Mix.Stands k.n
      ({ prev := (scalarWords k seedBase).headD 0, done := [], todo := (scalarWords k seedBase).tail, i := 1 } : Mix w)
      { b := scalarLoop k seedBase b, i := 1, j := 0 } := by
    rw [← hs]
    refine ⟨⟨by simp [hsl]; omega, ?_, rfl⟩, rfl, by simp, hsl, ?_⟩
    · intro h; have := congrArg List.length h; simp [hsl] at this; omega
    · simp [scalarWords, loopRead]
  have h1 := forwardPass_stands k hn key hk (max k.n key.length) key _ _ h0 (by simp)
    (List.length_pos_iff.mpr hk)
  have h2 := reversePass_stands k hn (k.n - 1) _ _ h1
  simp only [arrayWords, arrayLoop]
  obtain ⟨-, -, htail, hlen, -⟩ := h2
  cases hc : ((reverseLoopStep k)^[k.n - 1] ((forwardLoopStep k key)^[max k.n key.length]
      { b := scalarLoop k seedBase b, i := 1, j := 0 })).b with
  | nil => rw [hc] at hlen; simp at hlen; omega
  | cons x xs =>
    rw [hc, List.tail_cons] at htail
    rw [List.set_cons_zero, htail]

end Sys2Proof.Machine
end

