-- ==== Sys2Proof/Tests/Slice0.lean ====
section
/-! SUPPORT. Tests of the model, and one witness for the hypotheses of each statement. Each expected value stands in
spec/95_test_vectors.md or in the rule the test names, and no test runs more than two steps. -/

set_option maxRecDepth 100000
set_option Elab.async false

namespace Sys2Proof.Tests

open Sys2Proof Sys2Proof.Machine

/-! ## Reading an outcome -/

/-- What the host reads of RES after a step that answers a next state. -/
def resAfter : Host.Outcome State Fault Refusal → Option Word64
  | .next t => t.hostRes
  | .fault _ => none
  | .refused _ => none

/-- STATUS, FCMD and FOPA after a step that answers a next state. -/
def recordAfter : Host.Outcome State Fault Refusal → Option (Word32 × Word32 × Word64)
  | .next t => some (t.status, t.fcmd, t.fopa)
  | .fault _ => none
  | .refused _ => none

/-- `seeded`, `remaining` and `cursor` of an engine after a step. -/
def countersAfter (e : EngineId) : Host.Outcome State Fault Refusal → Option (Bool × Nat × Nat)
  | .next t => some ((t.engine e).seeded, (t.engine e).remaining, (t.engine e).cursor)
  | .fault _ => none
  | .refused _ => none

/-- `buf[i]` of an engine after a step. -/
def bufAfter (e : EngineId) (i : Nat) : Host.Outcome State Fault Refusal → Option (BitVec e.width)
  | .next t => (t.engine e).buf[i]?
  | .fault _ => none
  | .refused _ => none

/-- `KLEN` and `KEY[i]` of an engine after a step. -/
def keyAfter (e : EngineId) (i : Nat) : Host.Outcome State Fault Refusal → Option (Nat × Option (BitVec e.width))
  | .next t => some ((t.engine e).klen, (t.engine e).key[i]?)
  | .fault _ => none
  | .refused _ => none

/-! ## Small states -/

/-- Reset, with a host that offers one command. -/
def offering (cw : Word32) (opa : Word64) : State := State.reset.offerNext { cw := cw, opa := opa }

/-- Reset, with the entropy source's next answer given. -/
def answering (a : EntropyAnswer) : State := { State.reset with entropyIn := [a] }

/-- Key stores of four words (`KMAX` = 4): the key of 95_test_vectors.md §2.2 in MT32's, its length given. -/
def withKey (klen : Nat) : State :=
  { State.reset with
    params := { Params.default with kmax := 4 }
    mt32 := { Engine.reset 32 624 4 with key := [0x123, 0x234, 0x345, 0x456], klen := klen }
    mt64 := Engine.reset 64 312 4 }

/-- A primed MT32 engine with the given number of extractions to go before the next regeneration. -/
def primed (remaining : Nat) : State :=
  { State.reset with
    mt32 := { Engine.reset 32 624 1024 with seeded := true, remaining := remaining, cursor := 625 - remaining } }

/-- A block that has taken Fault(BOUND), with the host's next inputs given. -/
def faultedWith (inputs : List HostInput) : State :=
  { State.reset with status := 0x00000021, fcmd := 0x00000014, hostIn := inputs }

/-! ## Well-formedness (R92, R97 (c)) -/

theorem test_wellFormed_refuses_res53_on_mt64 : (Instr.res53 .mt64).wellFormed = false := by decide
theorem test_wellFormed_accepts_res53_on_mt32 : (Instr.res53 .mt32).wellFormed = true := by decide

/-! ## Decoding words written out from R91's pattern and R93's opcodes, and the encoder -/

theorem test_decode_seed : decode { cw := 0b00000000000000000000000000000001, opa := 0x1571 } = .ok (.seed .mt32 5489) ∧
    encode (.seed .mt64 5489) = { cw := 0b00000000000000000000000100000001, opa := 0x1571 } := by decide
theorem test_decode_seedEnt : decode { cw := 0b00000000000000000000000100000010, opa := 9 } = .ok (.seedEnt .mt64) ∧
    encode (.seedEnt .mt32) = { cw := 0b00000000000000000000000000000010, opa := 0 } := by decide
theorem test_decode_keyClr : decode { cw := 0b00000000000000000000000000000011, opa := 0 } = .ok (.keyClr .mt32) ∧
    encode (.keyClr .mt64) = { cw := 0b00000000000000000000000100000011, opa := 0 } := by decide
theorem test_decode_keyPush : decode { cw := 0b00000000000000000000000100000100, opa := 7 } = .ok (.keyPush .mt64 7) ∧
    encode (.keyPush .mt32 7) = { cw := 0b00000000000000000000000000000100, opa := 7 } := by decide
theorem test_decode_seedArr : decode { cw := 0b00000000000000000000000000000101, opa := 0 } = .ok (.seedArr .mt32) ∧
    encode (.seedArr .mt64) = { cw := 0b00000000000000000000000100000101, opa := 0 } := by decide
theorem test_decode_next : decode { cw := 0b00000000000000000000000100010000, opa := 3 } = .ok (.next .mt64) ∧
    encode (.next .mt32) = { cw := 0b00000000000000000000000000010000, opa := 0 } := by decide
theorem test_decode_nextS : decode { cw := 0b00000000000000000000000000010001, opa := 0 } = .ok (.nextS .mt32) ∧
    encode (.nextS .mt64) = { cw := 0b00000000000000000000000100010001, opa := 0 } := by decide
theorem test_decode_nextPos : decode { cw := 0b00000000000000000000000100010010, opa := 0 } = .ok (.nextPos .mt64) ∧
    encode (.nextPos .mt32) = { cw := 0b00000000000000000000000000010010, opa := 0 } := by decide
theorem test_decode_nextT32 : decode { cw := 0b00000000000000000000000000010011, opa := 0 } = .ok (.nextT32 .mt32) ∧
    encode (.nextT32 .mt64) = { cw := 0b00000000000000000000000100010011, opa := 0 } := by decide
theorem test_decode_bounded : decode { cw := 0b00000000000000000000000100010100, opa := 0x3E8 } = .ok (.bounded .mt64 1000) ∧
    encode (.bounded .mt32 10) = { cw := 0b00000000000000000000000000010100, opa := 0xA } := by decide
theorem test_decode_real1 : decode { cw := 0b00000000000000000000000000100000, opa := 0 } = .ok (.real1 .mt32) ∧
    encode (.real1 .mt64) = { cw := 0b00000000000000000000000100100000, opa := 0 } := by decide
theorem test_decode_real2 : decode { cw := 0b00000000000000000000000100100001, opa := 0 } = .ok (.real2 .mt64) ∧
    encode (.real2 .mt32) = { cw := 0b00000000000000000000000000100001, opa := 0 } := by decide
theorem test_decode_real3 : decode { cw := 0b00000000000000000000000000100010, opa := 0 } = .ok (.real3 .mt32) ∧
    encode (.real3 .mt64) = { cw := 0b00000000000000000000000100100010, opa := 0 } := by decide
theorem test_decode_res53 : decode { cw := 0b00000000000000000000000000100011, opa := 0 } = .ok (.res53 .mt32) ∧
    encode (.res53 .mt32) = { cw := 0b00000000000000000000000000100011, opa := 0 } := by decide
theorem test_decode_warmup : decode { cw := 0b00000000000000000000000100110000, opa := 0x138 } = .ok (.warmup .mt64 312) ∧
    encode (.warmup .mt32 2) = { cw := 0b00000000000000000000000000110000, opa := 2 } := by decide
theorem test_decode_warmupEnt : decode { cw := 0b00000000000000000000000000110001, opa := 0 } = .ok (.warmupEnt .mt32) ∧
    encode (.warmupEnt .mt64) = { cw := 0b00000000000000000000000100110001, opa := 0 } := by decide

/-- R97: each clause, by the words of 95_test_vectors.md §3.11. -/
theorem test_decode_refuses : decode { cw := 0x00000000, opa := 0 } = .error .undefinedOp ∧
    decode { cw := 0x00000006, opa := 0 } = .error .undefinedOp ∧
    decode { cw := 0x00000214, opa := 0 } = .error .reservedBits ∧
    decode { cw := 0x80000010, opa := 0 } = .error .reservedBits ∧
    decode { cw := 0x00000123, opa := 0 } = .error .res53OnMt64 := by decide

/-- The host's numbering: `CW` in bits 31..0, `OPA` from bit 32 on. -/
theorem test_decodeTableWord : decodeTableWord 32 0x114 = some (.bounded .mt64 0) ∧
    decodeTableWord 96 0x3E800000114 = some (.bounded .mt64 1000) ∧ decodeTableWord 32 0 = none := by decide

/-! ## The port (95_test_vectors.md §3.11, §3.2, §4) -/

theorem test_step_runs_the_first_command : resAfter (step (State.reset.withFetchWord 32 0x010)) = some 0xD091BB5C := by
  decide +kernel
theorem test_step_illegal_before_bound :
    recordAfter (step (offering 0x00000214 0)) = some (0x00000011, 0x00000214, 0) := by decide +kernel
theorem test_step_res53_on_mt64_is_illegal :
    recordAfter (step (offering 0x00000123 0xDEADBEEF)) = some (0x00000011, 0x00000123, 0xDEADBEEF) := by decide +kernel
theorem test_step_faulted_block_accepts_nothing :
    recordAfter (step (faultedWith [.offer { cw := 0x010, opa := 0 }])) = some (0x00000021, 0x00000014, 0) := by
  decide +kernel
theorem test_step_reset_clears_a_fault :
    recordAfter (step (faultedWith [.rst])) = some (0x00000002, 0, 0) := by decide +kernel

/-! ## Seeding (95_test_vectors.md §2, §3.1, §3.2, §3.10) -/

theorem test_seed_buffer : bufAfter .mt32 623 (exec (.seed .mt32 5489) State.reset) = some 0x04C46D8C := by decide +kernel
theorem test_seed_uses_all_64_bits_on_mt64 :
    bufAfter .mt64 1 (exec (.seed .mt64 0x100000005) State.reset) = some 0x062F440F7EEB7BE2 := by decide +kernel
theorem test_seedEnt_seeds : bufAfter .mt64 311 (exec (.seedEnt .mt64) (answering (.data 5489))) = some 0xC65AE95C45A5D796 := by
  decide +kernel
theorem test_seedEnt_failure :
    recordAfter (step { offering 0x102 9 with entropyIn := [.fail] }) = some (0x00000031, 0x00000102, 9) := by
  decide +kernel
theorem test_keyClr_keeps_the_words : keyAfter .mt32 0 (exec (.keyClr .mt32) (withKey 4)) = some (0, some 0x123) := by
  decide +kernel
theorem test_keyPush_truncates_on_mt32 :
    keyAfter .mt32 3 (exec (.keyPush .mt32 0x0000000100000789) (withKey 3)) = some (4, some 0x789) := by decide +kernel
theorem test_keyPush_full :
    recordAfter (step { withKey 4 with hostIn := [.offer { cw := 0x004, opa := 7 }] }) = some (0x00000051, 0x00000004, 7) := by
  decide +kernel
theorem test_seedArr_buffer : bufAfter .mt32 623 (exec (.seedArr .mt32) (withKey 4)) = some 0x049ED813 := by decide +kernel
theorem test_seedArr_reads_its_own_key :
    recordAfter (step { withKey 4 with hostIn := [.offer { cw := 0x105, opa := 0 }] }) = some (0x00000041, 0x00000105, 0) := by
  decide +kernel

/-! ## Extraction (95_test_vectors.md §3.5, §3.7): the first word is 0xD091BB5C on MT32, 0xC96D191CF6F6AEA6 on MT64 -/

theorem test_next_mt64 : resAfter (exec (.next .mt64) State.reset) = some 0xC96D191CF6F6AEA6 := by decide +kernel
theorem test_next_counters : countersAfter .mt32 (exec (.next .mt32) State.reset) = some (true, 624, 1) := by decide +kernel
theorem test_nextS_extends_the_sign : resAfter (exec (.nextS .mt32) State.reset) = some 0xFFFFFFFFD091BB5C := by
  decide +kernel
theorem test_nextPos_mt32 : resAfter (exec (.nextPos .mt32) State.reset) = some 0x5091BB5C := by decide +kernel
theorem test_nextPos_mt64 : resAfter (exec (.nextPos .mt64) State.reset) = some 0x496D191CF6F6AEA6 := by decide +kernel
theorem test_nextT32_low : resAfter (exec (.nextT32 .mt64) State.reset) = some 0xF6F6AEA6 := by decide +kernel
theorem test_nextT32_high :
    resAfter (exec (.nextT32 .mt64) { State.reset with params := { Params.default with truncSel := .high } }) =
      some 0xC96D191C := by decide +kernel
theorem test_bounded_largest_bound :
    resAfter (exec (.bounded .mt64 0x7FFFFFFFFFFFFFFF) State.reset) = some 5290912749423341223 := by decide +kernel
theorem test_bounded_ignores_high_bits_on_mt32 :
    recordAfter (step (offering 0x014 0x0000000100000000)) = some (0x00000021, 0x00000014, 0x0000000100000000) := by
  decide +kernel

/-! ## Reals (95_test_vectors.md §3.6, §3.8, §3.9) -/

theorem test_real1_quotient : resAfter (exec (.real1 .mt64) State.reset) = some 0x3FE92DA3239EDED6 := by decide +kernel
theorem test_real1_reciprocal :
    resAfter (exec (.real1 .mt64) { State.reset with params := { Params.default with real1Mode := .reciprocal } }) =
      some 0x3FE92DA3239EDED7 := by decide +kernel
theorem test_real2 : resAfter (exec (.real2 .mt32) State.reset) = some 0x3FEA12376B800000 := by decide +kernel
theorem test_real2_mt64_drops_11_bits : real2Bits .mt64 0x0000000000000800#64 = 0x3CA0000000000000 := by decide +kernel
theorem test_real3 : resAfter (exec (.real3 .mt32) State.reset) = some 0x3FEA12376B900000 := by decide +kernel
theorem test_real3_mt64_drops_12_bits : real3Bits .mt64 0x0000000000001000#64 = 0x3CB8000000000000 := by decide +kernel
theorem test_res53_word_order : resAfter (exec (.res53 .mt32) State.reset) = some 0x3FEA1237688ABA7B := by decide +kernel
theorem test_res53_takes_two_words : countersAfter .mt32 (exec (.res53 .mt32) State.reset) = some (true, 623, 2) := by
  decide +kernel

/-! ## Warmup (95_test_vectors.md §3.10) -/

theorem test_warmup_one : countersAfter .mt32 (exec (.warmup .mt32 1) State.reset) = some (true, 624, 1) ∧
    resAfter (exec (.warmup .mt32 1) State.reset) = none := by decide +kernel
theorem test_warmup_zero : exec (.warmup .mt32 0) State.reset = .next State.reset := rfl
theorem test_warmupEnt_failure :
    recordAfter (step { offering 0x031 0 with entropyIn := [.fail] }) = some (0x00000031, 0x00000031, 0) := by
  decide +kernel

/-! ## The buffer procedures (40_seeding.md R122, 41_regeneration.md R168, 95_test_vectors.md §3.4) -/

theorem test_first_forward_step :
    (forwardPass constsMt32 [0x123#32] 1 [0x123#32] 0 { prev := 0x012BD6AA, done := [], todo := [0x82D2AB13, 0], i := 1 }).prev =
      0xFF890AD4#32 := by decide
theorem test_first_twist_step : twistWord constsMt32 0x00001571 0x4D98EE96 0xBDC68D6C = 0x9B0AFA27 ∧
    twistWord constsMt64 0x1571 0xB5347F47116BD3DE 0x245B1C66FA082BFF = 0x245B1C66F2BDC210 := by decide
/-- Output 227 is the first whose tap is a new word of the sweep (R163, C3). -/
theorem test_sweep_reads_new_taps :
    temper32 ((twistWords constsMt32 (scalarWords constsMt32 5489)).getD 227 0) = 2397746050#32 := by decide +kernel
theorem test_sweep_last_word : (twistWords constsMt32 (scalarWords constsMt32 5489)).getD 623 0 = 0xD1B102B7#32 := by
  decide +kernel

/-! ## The assembler (R100, R101) -/

theorem test_assemble_bounded : assembleLine 1024 "mt64.bounded 1000" = .ok [{ cw := 0x00000114, opa := 0x3E8 }] := by
  decide +kernel
theorem test_assemble_seed_array : assembleLine 1024 "mt32.seed_array 0x123, 0x234 ; a key" =
    .ok [{ cw := 3, opa := 0 }, { cw := 4, opa := 0x123 }, { cw := 4, opa := 0x234 }, { cw := 5, opa := 0 }] := by
  decide +kernel
theorem test_assemble_negative : assembleLine 1024 "mt32.seed -1" = .ok [{ cw := 1, opa := 0xFFFFFFFFFFFFFFFF }] := by
  decide +kernel
theorem test_assemble_out_of_range : assembleLine 1024 "mt32.seed 18446744073709551616" = .error .range := by decide +kernel

/-! ## Witnesses: for each statement with hypotheses, a state and operands that meet them, clause by clause -/

theorem withKey_inv : (withKey 0).Inv ∧ (withKey 3).Inv ∧ (withKey 4).Inv := by
  refine ⟨?_, ?_, ?_⟩ <;> decide +kernel
theorem primed_inv : (primed 1).Inv ∧ (primed 2).Inv ∧ (primed 624).Inv := by
  refine ⟨?_, ?_, ?_⟩ <;> decide +kernel
theorem faulted_inv : (faultedWith [.offer { cw := 0x010, opa := 0 }, .offer { cw := 0, opa := 0 }]).Inv := by
  decide +kernel

/-- A host that offers one command to the block with the key stores of `withKey`. -/
def offeringKey (klen : Nat) (c : Command) : State := { withKey klen with hostIn := [.offer c] }

theorem witness_ResetInputRestoresResetValues : (faultedWith [.rst]).hostIn = .rst :: [] := rfl
theorem witness_StepKeepsInvariant : (offeringKey 4 { cw := 0x003, opa := 0 }).Inv ∧
    ∃ s', step (offeringKey 4 { cw := 0x003, opa := 0 }) = .next s' := ⟨withKey_inv.2.2, _, rfl⟩
theorem witness_StepAlwaysAnswersNext : (offeringKey 4 { cw := 0x004, opa := 0 }).Inv := withKey_inv.2.2
theorem witness_StepRunsDecodedCommand :
    (offeringKey 3 { cw := 0x104, opa := 7 }).hostIn = .offer { cw := 0x104, opa := 7 } :: [] ∧
    (offeringKey 3 { cw := 0x104, opa := 7 }).ready = true ∧
    decode { cw := 0x104, opa := 7 } = .ok (.keyPush .mt64 7) := ⟨rfl, by decide, by decide⟩
/-- R97's three clauses at the ends of their ranges: OP 0x00 and 0x32, bits 9 and 31, RES53 on MT64. -/
theorem witness_IllegalCommandWordFaults :
    (∀ c : Command, (offeringKey 3 c).hostIn = .offer c :: [] ∧ (offeringKey 3 c).ready = true) ∧
    (∀ cw : Word32, cw = 0x00000000 ∨ cw = 0x00000032 → cw.extractLsb' 0 8 ∉ ([0x01, 0x02, 0x03, 0x04, 0x05, 0x10, 0x11,
      0x12, 0x13, 0x14, 0x20, 0x21, 0x22, 0x23, 0x30, 0x31] : List (BitVec 8))) ∧
    (∀ cw : Word32, cw = 0x00000210 ∨ cw = 0x80000010 → cw.extractLsb' 9 23 ≠ 0) ∧
    ((0x00000123 : Word32).extractLsb' 0 8 = 0x23 ∧ (0x00000123 : Word32).getLsbD 8 = true) := by
  refine ⟨fun c => ⟨rfl, show (withKey 3).ready = true by decide⟩, ?_, ?_, by decide⟩
  · rintro cw (rfl | rfl) <;> decide
  · rintro cw (rfl | rfl) <;> decide
theorem witness_NothingChangesWithoutAcceptance : (withKey 3).hostIn = [] ∧
    (faultedWith [.offer { cw := 0x010, opa := 0 }]).hostIn = .offer { cw := 0x010, opa := 0 } :: [] ∧
    (faultedWith [.offer { cw := 0x010, opa := 0 }]).ready = false := ⟨rfl, rfl, by decide⟩
theorem witness_FaultedBlockIsQuiescent :
    let s := faultedWith [.offer { cw := 0x010, opa := 0 }, .offer { cw := 0, opa := 0 }]
    s.Inv ∧ s.faulted = true ∧ HostInput.rst ∉ s.hostIn ∧ ∃ t, core.run 2 s = .next t :=
  ⟨faulted_inv, by decide, by decide, _, rfl⟩
theorem witness_FaultEntryChangesOnlyTheRecord : (Instr.keyPush .mt32 7).wellFormed = true ∧ (withKey 4).faulted = false ∧
    ∃ t, exec (.keyPush .mt32 7) (withKey 4) = .next t ∧ t.faulted = true := ⟨rfl, by decide, _, rfl, by decide⟩
/-- Each cause of R250's table a legal command can report, and none. -/
theorem witness_FaultCausesAreTheTable : (withKey 4).Inv ∧ (withKey 0).Inv ∧ (withKey 4).faulted = false ∧
    (withKey 4).cause (.keyPush .mt32 7) = some .keyFull ∧ (withKey 0).cause (.seedArr .mt32) = some .keyEmpty ∧
    (withKey 4).cause (.bounded .mt64 0) = some .bound ∧
    ({ withKey 4 with entropyIn := [.fail] } : State).cause (.seedEnt .mt32) = some .entropy ∧
    (withKey 4).cause (.next .mt32) = none ∧ (offeringKey 3 { cw := 0, opa := 0 }).ready = true ∧
    decode { cw := 0, opa := 0 } = .error .undefinedOp :=
  ⟨withKey_inv.2.2, withKey_inv.1, by decide, by decide, by decide, by decide, by decide, rfl, by decide, by decide⟩
theorem witness_EncodeOfDecode : decode { cw := 0x114, opa := 1000 } = .ok (.bounded .mt64 1000) ∧
    (Instr.bounded .mt64 1000).operandKind ≠ .none := by decide
theorem witness_KindNoneIgnoresOperand : (withKey 0).Inv ∧ (withKey 0).faulted = false ∧
    decode { cw := 0x005, opa := 0 } = .ok (.seedArr .mt32) ∧ (Instr.seedArr .mt32).operandKind = .none :=
  ⟨withKey_inv.1, by decide, by decide, rfl⟩
theorem witness_SeedRunsScalarSeedLoop : ((withKey 3).engine .mt64).buf.length = EngineId.mt64.consts.n := by decide +kernel
theorem witness_SeedDependsOnTruncatedSeed :
    (5 : Word64).setWidth EngineId.mt32.width = (0x100000005 : Word64).setWidth EngineId.mt32.width ∧
    (5 : Word64) ≠ 0x100000005 ∧ (∃ t, exec (.seed .mt64 5) (withKey 3) = .next t) ∧
    ∃ u, exec (.seed .mt64 0x100000005) (withKey 3) = .next u := ⟨by decide, by decide, ⟨_, rfl⟩, _, rfl⟩
theorem witness_SeedEntropySeedsOrFaults : (answering (.data 5489)).entropyAnswer = .data 5489 ∧
    ((answering (.data 5489)).engine .mt32).buf.length = EngineId.mt32.consts.n ∧
    (answering .fail).entropyAnswer = .fail := ⟨rfl, by decide +kernel, rfl⟩
/-- The last free place of the key store, and the full store. -/
theorem witness_KeyPushAppendsOrFaults : ((withKey 3).engine .mt32).key.length = (withKey 3).params.kmax ∧
    ((withKey 3).engine .mt32).klen < (withKey 3).params.kmax ∧
    ((withKey 4).engine .mt32).key.length = (withKey 4).params.kmax ∧
    ((withKey 4).engine .mt32).klen = (withKey 4).params.kmax := by decide
/-- A key of one word, and the empty key. -/
theorem witness_SeedArrayRunsMixingLoops : ((withKey 1).engine .mt32).buf.length = EngineId.mt32.consts.n ∧
    ((withKey 1).engine .mt32).klen ≤ ((withKey 1).engine .mt32).key.length ∧ ((withKey 1).engine .mt32).klen ≠ 0 ∧
    ((withKey 0).engine .mt32).klen = 0 := by decide +kernel
theorem witness_SeedingOnlyPrimes : (∃ t, exec (.seedArr .mt32) (withKey 1) = .next t) ∧
    (withKey 1).cause (.seedArr .mt32) = none ∧ (∃ t, exec (.seed .mt32 0) (withKey 1) = .next t) ∧
    (withKey 1).cause (.seed .mt32 0) = none ∧ (∃ t, exec (.seedEnt .mt32) (answering (.data 0)) = .next t) ∧
    (answering (.data 0)).cause (.seedEnt .mt32) = none :=
  ⟨⟨_, rfl⟩, by decide, ⟨_, rfl⟩, rfl, ⟨_, rfl⟩, by decide⟩
theorem witness_SeedingIsReproducible : (withKey 3).Inv ∧ (withKey 4).Inv ∧
    (∃ t, exec (.seed .mt32 7) (withKey 3) = .next t) ∧ (∃ t, exec (.seed .mt32 7) (withKey 4) = .next t) ∧
    (∃ t, exec (.seedArr .mt32) (withKey 3) = .next t) ∧
    (∃ t, exec (.seedArr .mt32) { withKey 3 with res := 1 } = .next t) ∧ ((withKey 3).engine .mt32).klen ≠ 0 ∧
    (({ withKey 3 with res := 1 } : State).engine .mt32).key.take (({ withKey 3 with res := 1 } : State).engine .mt32).klen =
      ((withKey 3).engine .mt32).key.take ((withKey 3).engine .mt32).klen :=
  ⟨withKey_inv.2.1, withKey_inv.2.2, ⟨_, rfl⟩, ⟨_, rfl⟩, ⟨_, rfl⟩, ⟨_, rfl⟩, by decide, rfl⟩
theorem witness_SeededBufferIsNotZero : (withKey 3).cause (.seed .mt32 0) = none ∧
    ∃ t, exec (.seed .mt32 0) (withKey 3) = .next t := ⟨rfl, _, rfl⟩
theorem witness_RegenerateRunsInPlaceSweep : ((primed 1).engine .mt32).buf.length = EngineId.mt32.consts.n ∧
    ((primed 1).engine .mt32).seeded = true ∧ ((withKey 3).engine .mt64).buf.length = EngineId.mt64.consts.n ∧
    ((withKey 3).engine .mt64).seeded = false := by decide +kernel
/-- The ends of R163's three ranges on MT32: 0 and 226, 227 and 622. -/
theorem witness_SweepReadsOldThenNewWords : (scalarWords constsMt32 5489).length = EngineId.mt32.consts.n ∧
    0 < EngineId.mt32.consts.n - EngineId.mt32.consts.m ∧ 226 < EngineId.mt32.consts.n - EngineId.mt32.consts.m ∧
    EngineId.mt32.consts.n - EngineId.mt32.consts.m ≤ 227 ∧ 622 < EngineId.mt32.consts.n - 1 := by decide +kernel
theorem witness_SweepZeroFixedPoint : (scalarWords constsMt32 5489).length = EngineId.mt32.consts.n ∧
    (0x7FFFFFFF : BitVec 32) >>> 31 = ((scalarWords constsMt32 5489).getD 0 0) >>> 31 := by decide +kernel
/-- No extraction, and all but the last before a regeneration. -/
theorem witness_NoRegenerationBeforeRemainingIsSpent : (primed 624).Inv ∧ 0 < ((primed 624).engine .mt32).remaining ∧
    623 < ((primed 624).engine .mt32).remaining := ⟨primed_inv.2.2, by decide, by decide⟩
/-- A command that writes RES, the least count of WARMUP, and WARMUP_ENT with an answer, on an unseeded engine. -/
theorem witness_UnseededExtractsAsSeed5489 : (Instr.next .mt32).extracts = true ∧ (Instr.next .mt32).wellFormed = true ∧
    (withKey 3).Inv ∧ (withKey 3).cause (.next .mt32) = none ∧ ((withKey 3).engine .mt32).seeded = false ∧
    (∃ u, exec (.seed .mt32 5489) (withKey 3) = .next u) ∧
    (Instr.warmup .mt32 1).extracts = true ∧ (withKey 3).cause (.warmup .mt32 1) = none ∧
    (Instr.warmupEnt .mt32).extracts = true ∧ ({ withKey 3 with entropyIn := [.data 7] } : State).Inv ∧
    ({ withKey 3 with entropyIn := [.data 7] } : State).cause (.warmupEnt .mt32) = none ∧
    ∃ u, exec (.seed .mt32 5489) { withKey 3 with entropyIn := [.data 7] } = .next u :=
  ⟨rfl, rfl, withKey_inv.2.1, rfl, rfl, ⟨_, rfl⟩, by decide, rfl, rfl, withKey_inv.2.1, by decide, _, rfl⟩
/-- The last word of a buffer, and the extraction that regenerates. -/
theorem witness_NextReturnsTemperedWord : (primed 2).Inv ∧ 2 ≤ ((primed 2).engine .mt32).remaining ∧ (primed 1).Inv ∧
    ((primed 1).engine .mt32).remaining = 1 := ⟨primed_inv.2.1, by decide, primed_inv.1, by decide⟩
theorem witness_NextSignedReturnsSignedWord : (primed 1).Inv := primed_inv.1
/-- Both values of `TRUNC_SEL`. -/
theorem witness_NextTruncatedReturnsHalf : (primed 1).Inv ∧
    ({ primed 1 with params := { Params.default with truncSel := .high } } : State).Inv := by decide +kernel
theorem witness_NextPositiveMasksSignBit : (primed 2).Inv := primed_inv.2.1
/-- The least and the largest bound, and the two ends of n <= 0. -/
theorem witness_BoundedReturnsRemainderOrFaults : (primed 1).Inv ∧ 0 < ((1 : Word64).setWidth EngineId.mt32.width).toInt ∧
    0 < ((0x7FFFFFFF : Word64).setWidth EngineId.mt32.width).toInt ∧
    ((0 : Word64).setWidth EngineId.mt32.width).toInt ≤ 0 ∧
    ((0x80000000 : Word64).setWidth EngineId.mt32.width).toInt ≤ 0 :=
  ⟨primed_inv.1, by decide, by decide, by decide, by decide⟩
/-- The largest integer fp takes; 1.0 and 1.5, where each result is finite and the divisor is not 0. -/
theorem witness_ArithmeticRoundsToNearestEven : 2 ^ 53 - 1 < 2 ^ 53 ∧
    FiniteReal 0x3FF0000000000000 ∧ FiniteReal 0x3FF8000000000000 ∧
    FiniteReal (fadd 0x3FF0000000000000 0x3FF8000000000000) ∧ FiniteReal (fmul 0x3FF0000000000000 0x3FF8000000000000) ∧
    realValue 0x3FF8000000000000 ≠ 0 ∧ FiniteReal (fdiv 0x3FF0000000000000 0x3FF8000000000000) := by
  refine ⟨by decide, by decide, by decide, by decide +kernel, by decide +kernel, ?_, by decide +kernel⟩
  rw [realValue, show binaryValue 0x3FF8000000000000 = { num := 2 ^ 52 + 2 ^ 51, den := 2 ^ 52 } by decide]
  norm_num
/-- Both values of `REAL1_MODE`. -/
theorem witness_Real1DividesByDenominator : (primed 1).Inv ∧
    ({ primed 1 with params := { Params.default with real1Mode := .reciprocal } } : State).Inv := by decide +kernel
theorem witness_Real2IsExactQuotient : (primed 1).Inv := primed_inv.1
theorem witness_Real3IsExactQuotient : (primed 2).Inv := primed_inv.2.1
/-- The second word of RES53 comes from a regeneration. -/
theorem witness_Res53CombinesTwoWords : (primed 2).Inv := primed_inv.2.1
/-- The least and the largest bound of each engine. -/
theorem witness_RealRangeLaws : (0 : Int) < 1 ∧ (1 : Int) < 2 ^ (EngineId.mt32.width - 1) ∧
    (0 : Int) < 2 ^ 63 - 1 ∧ (2 ^ 63 - 1 : Int) < 2 ^ (EngineId.mt64.width - 1) := by decide
theorem witness_WarmupDiscardsCountWords : (primed 2).Inv := primed_inv.2.1
theorem witness_WarmupEntropyDiscardsPrimeOrFaults : ({ primed 1 with entropyIn := [.data 7] } : State).Inv ∧
    ({ primed 1 with entropyIn := [.data 7] } : State).entropyAnswer = .data 7 ∧
    (answering .fail).entropyAnswer = .fail := ⟨primed_inv.1, rfl, rfl⟩
theorem witness_ExtractionLeavesEnginePrimed : (primed 1).Inv ∧ (primed 1).cause (.real3 .mt64) = none ∧
    (Instr.real3 .mt64).wellFormed = true ∧ (Instr.real3 .mt64).extracts = true ∧
    (∃ t, exec (.real3 .mt64) (primed 1) = .next t) ∧ (Instr.warmup .mt32 1).extracts = true ∧
    (∃ t, exec (.warmup .mt32 1) (primed 1) = .next t) ∧ (Instr.warmupEnt .mt32).extracts = true ∧
    ({ primed 1 with entropyIn := [.data 7] } : State).cause (.warmupEnt .mt32) = none ∧
    ∃ t, exec (.warmupEnt .mt32) { primed 1 with entropyIn := [.data 7] } = .next t :=
  ⟨primed_inv.1, rfl, rfl, rfl, ⟨_, State.convertWord_of_inv primed_inv.1 .mt64 (real3Bits .mt64)⟩, by decide,
    ⟨_, State.discardWords_of_inv primed_inv.1 .mt32 1⟩, rfl, by decide,
    _, State.discardWords_of_inv (State.inv_afterEntropy (s := { primed 1 with entropyIn := [.data 7] }) primed_inv.1)
      .mt32 (warmupCount 7)⟩
theorem witness_CommandsUseOnlyTheirEngine : EngineId.mt64 ≠ (Instr.seedArr .mt32).engine ∧
    ∃ t, exec (.seedArr .mt32) (withKey 3) = .next t := ⟨by decide, _, rfl⟩
/-- A command that writes no RES, a command that faults, and a command that completes with a result. -/
theorem witness_OnlyResultCommandsWriteRes : (∃ t, exec (.keyClr .mt32) (withKey 3) = .next t) ∧
    (Instr.keyClr .mt32).writesRes = false ∧ (∃ t, exec (.bounded .mt32 0) (withKey 3) = .next t) ∧
    (withKey 3).cause (.bounded .mt32 0) ≠ none ∧ (Instr.next .mt32).writesRes = true ∧
    (Instr.next .mt32).wellFormed = true ∧ (withKey 3).cause (.next .mt32) = none ∧
    ∃ t, exec (.next .mt32) (withKey 3) = .next t :=
  ⟨⟨_, rfl⟩, rfl, ⟨_, rfl⟩, by decide, rfl, rfl, rfl, _, State.convertWord_of_inv withKey_inv.2.1 .mt32 zext64⟩
theorem witness_OnlyKeyCommandsChangeKeyStore : (∃ t, exec (.seedArr .mt32) (withKey 3) = .next t) ∧
    (Instr.seedArr .mt32).writesKey = false ∧ (∃ t, exec (.keyPush .mt32 1) (withKey 3) = .next t) ∧
    EngineId.mt64 ≠ (Instr.keyPush .mt32 1).engine := ⟨⟨_, rfl⟩, rfl, ⟨_, rfl⟩, by decide⟩
theorem witness_CommandFrame : (Instr.warmup .mt32 1).wellFormed = true ∧
    (∃ t, exec (.warmup .mt32 1) (primed 1) = .next t) ∧ (primed 1).cause (.warmup .mt32 1) = none ∧
    ∀ e, Instr.warmup .mt32 1 ≠ .seedEnt e ∧ Instr.warmup .mt32 1 ≠ .warmupEnt e :=
  ⟨rfl, ⟨_, State.discardWords_of_inv primed_inv.1 .mt32 1⟩, rfl, fun _ => ⟨nofun, nofun⟩⟩
/-- Two states that differ in `cursor`, in `KEY` above `KLEN`, in RES before it has a value and in the captured command. -/
theorem witness_UnspecifiedItemsAreUnobservable :
    let s := offeringKey 3 { cw := 0x010, opa := 0 }
    let t := { s with mt32 := { s.mt32 with cursor := 9, key := [0x123, 0x234, 0x345, 0] }, res := 5, cw := 1 }
    s.Inv ∧ t.Inv ∧ s.Agree t ∧ ∃ s', step s = .next s' := by
  refine ⟨by decide +kernel, by decide +kernel, by decide +kernel, ?_⟩
  exact ⟨_, State.convertWord_of_inv (State.inv_capture (State.inv_setHostIn
    (s := offeringKey 3 { cw := 0x010, opa := 0 }) withKey_inv.2.1 []) { cw := 0x010, opa := 0 }) .mt32 zext64⟩
/-- The ends of [-2^63, 2^64), inside and outside. -/
theorem witness_AssemblerEncodesOperands : (-(2 ^ 63) ≤ (-(2 ^ 63) : Int) ∧ (-(2 ^ 63) : Int) < 2 ^ 64) ∧
    (-(2 ^ 63) ≤ (2 ^ 64 - 1 : Int) ∧ (2 ^ 64 - 1 : Int) < 2 ^ 64) ∧
    ¬(-(2 ^ 63) ≤ (-(2 ^ 63) - 1 : Int) ∧ (-(2 ^ 63) - 1 : Int) < 2 ^ 64) ∧
    ¬(-(2 ^ 63) ≤ (2 ^ 64 : Int) ∧ (2 ^ 64 : Int) < 2 ^ 64) := by decide
/-- Lengths 1 and KMAX, 0 and KMAX + 1, for KMAX = 2. -/
theorem witness_PseudoInstructionsExpand : 1 ≤ ([7] : List Word64).length ∧ ([7, 8] : List Word64).length ≤ 2 ∧
    ([] : List Word64).length = 0 ∧ 2 < ([7, 8, 9] : List Word64).length := by decide

end Sys2Proof.Tests
end

section
/-! The scope of the block (spec/00_scope.md): the arithmetic of R14 and the constants of R6, R161 and R162. -/

namespace Sys2Proof.Machine

/-! ## The arithmetic of R14 -/

theorem fadd_roundsTo {x y : Word64} (hf : FiniteReal (fadd x y)) :
    RoundsTo (realValue x + realValue y) (fadd x y) := by
  rw [← fadd_eq_div]
  exact roundBinary64_roundsTo _ _ (Nat.mul_pos (binaryValue_den_pos x) (binaryValue_den_pos y)) hf

theorem fmul_roundsTo {x y : Word64} (hf : FiniteReal (fmul x y)) :
    RoundsTo (realValue x * realValue y) (fmul x y) := by
  rw [← fmul_eq_div]
  exact roundBinary64_roundsTo _ _ (Nat.mul_pos (binaryValue_den_pos x) (binaryValue_den_pos y)) hf

theorem fdiv_roundsTo {x y : Word64} (hy : realValue y ≠ 0) (hf : FiniteReal (fdiv x y)) :
    RoundsTo (realValue x / realValue y) (fdiv x y) := by
  rw [← fdiv_eq_div]
  exact roundBinary64_roundsTo _ _ (Nat.mul_pos (binaryValue_den_pos x) (binaryValue_num_pos hy)) hf

/-- Settles O39: each primitive is `roundBinary64` of a fraction whose value is the exact result. -/
theorem arithmeticRoundsToNearestEven : Obligations.ArithmeticRoundsToNearestEven :=
  ⟨fp_exact, fun _ _ _ _ => ⟨fadd_roundsTo, fmul_roundsTo, fdiv_roundsTo⟩⟩

/-! ## The constants of R6, R161 and R162 -/

/-- The upper mask selects the bits the lower mask leaves out (R161). -/
theorem um_eq_not_lm : ∀ e : EngineId, e.consts.um = ~~~e.consts.lm
  | .mt32 => by decide
  | .mt64 => by decide

/-- Settles O29: every constant stands in the tables of the two engines, and the masks are complements. -/
theorem engineConstants : Obligations.EngineConstants :=
  ⟨rfl, rfl, rfl, rfl, rfl, rfl, rfl, rfl, rfl, rfl, rfl, rfl, rfl, rfl, rfl, rfl, rfl, rfl, rfl, rfl, rfl, rfl,
    um_eq_not_lm⟩

end Sys2Proof.Machine
end

section
/-! The state of the block (spec/10_state.md): its reset values, what a command and a step can leave
behind, and the invariant that both keep. -/

namespace Sys2Proof.Machine

/-! ## Reset (R44, R45) -/

/-- Settles O1: STATUS after reset is one literal word, and its fields are bits of it. -/
theorem resetPortRegisters : Obligations.ResetPortRegisters := by
  refine ⟨rfl, ?_, ?_, ?_, rfl, rfl, rfl⟩ <;> decide

theorem State.reset_engine (e : EngineId) :
    State.reset.engine e = Engine.reset e.width e.consts.n Params.default.kmax := by cases e <;> rfl

/-- Settles O2: both engines are `Engine.reset`. -/
theorem resetEngines : Obligations.ResetEngines := by
  intro e
  rw [State.reset_engine]
  exact ⟨rfl, rfl, rfl⟩

/-- Settles O4: the state after reset is what the reset input leaves of it, and that satisfies the invariant. -/
theorem resetSatisfiesInvariant : Obligations.ResetSatisfiesInvariant :=
  State.inv_assertReset (s := State.reset) (by decide)

/-! ## Any number of extractions -/

section Iterates

variable {s : State} {e : EngineId}

/-- What c discarded extractions can answer: c times the engine after one word. -/
theorem Engine.discard_cases {w : Nat} {k : Consts w} {c : Nat} {g g' : Engine w} (h : g.discard k c = .ok g') :
    g' = (fun g => { g.refill k with cursor := (g.refill k).cursor + 1 })^[c] g := by
  induction c generalizing g with
  | zero => exact (Except.ok.inj h).symm
  | succ c ih =>
    simp only [Engine.discard] at h
    split at h
    · rename_i y g1 hx
      obtain ⟨-, -, rfl⟩ := Engine.extractRaw_cases hx
      exact ih h
    · cases h

/-- What a command that discards words can answer as its next state. -/
theorem State.discardWords_cases {c : Nat} {t : State} (h : s.discardWords e c = .next t) :
    t = (fun u : State => u.afterWord e)^[c] s := by
  simp only [State.discardWords] at h
  split at h
  · rename_i g hg
    rw [State.iterate_afterWord, ← Engine.discard_cases hg]
    exact (Host.Outcome.next.inj h).symm
  · cases h

@[simp] theorem State.iterate_afterWord_res (c : Nat) : ((fun u : State => u.afterWord e)^[c] s).res = s.res := by
  simp [State.iterate_afterWord]

@[simp] theorem State.iterate_afterWord_resValid (c : Nat) :
    ((fun u : State => u.afterWord e)^[c] s).resValid = s.resValid := by
  simp [State.iterate_afterWord]

/-- Extractions on any engine leave every key store as it is (R36). -/
theorem State.afterWord_keyStore (s : State) (e f : EngineId) :
    ((s.afterWord e).engine f).key = (s.engine f).key ∧ ((s.afterWord e).engine f).klen = (s.engine f).klen := by
  by_cases hf : f = e
  · subst hf; simp
  · simp [State.afterWord_engine_of_ne s hf]

theorem State.iterate_afterWord_keyStore (c : Nat) (f : EngineId) :
    (((fun u : State => u.afterWord e)^[c] s).engine f).key = (s.engine f).key ∧
    (((fun u : State => u.afterWord e)^[c] s).engine f).klen = (s.engine f).klen := by
  induction c generalizing s with
  | zero => exact ⟨rfl, rfl⟩
  | succ c ih =>
    obtain ⟨hkey, hklen⟩ := State.afterWord_keyStore s e f
    rw [Function.iterate_succ_apply, ← hkey, ← hklen]
    exact ih

/-- An engine that has just extracted: it is primed (R35) and seeded. -/
abbrev Engine.Primed {w : Nat} (k : Consts w) (g : Engine w) : Prop :=
  g.cursor + g.remaining = k.n + 1 ∧ 1 ≤ g.remaining ∧ g.remaining ≤ k.n ∧ 1 ≤ g.cursor ∧ g.seeded = true

theorem State.primed_afterWord (h : s.Inv) (e : EngineId) : ((s.afterWord e).engine e).Primed e.consts := by
  obtain ⟨-, hsum, hlt, hseed⟩ := Engine.refill_ready (h.engine_inv e) (consts_range e).1
  rw [State.afterWord_engine]
  exact ⟨by simp only; omega, by simp only; omega, by simp only; omega, by simp, hseed⟩

theorem State.primed_iterate_afterWord (h : s.Inv) (e : EngineId) {c : Nat} (hc : c ≠ 0) :
    (((fun u : State => u.afterWord e)^[c] s).engine e).Primed e.consts := by
  obtain ⟨c, rfl⟩ := Nat.exists_eq_succ_of_ne_zero hc
  rw [Function.iterate_succ_apply']
  exact State.primed_afterWord (State.inv_iterate_afterWord h e c) e

end Iterates

/-! ## What a command can leave behind -/

/-- `u` is `s` before or after the answer to one entropy request is used up (R259). -/
abbrev State.Polled (s u : State) : Prop := u = s ∨ u = s.afterEntropy

/-- What a command that answers a next state can leave behind: every command does one of five things. The engine it
changes is the one it selects. -/
inductive Effect (i : Instr) (s : State) : State → Prop
  /-- It takes a fault (R250, R251). -/
  | fault {u : State} (c : FaultCode) (hu : s.Polled u) (hc : s.cause i ≠ none ∨ i.wellFormed = false) :
      Effect i s (u.raiseFault c)
  /-- It seeds the engine (R120, R122). -/
  | seeded {u : State} {g : Engine i.engine.width} (hu : s.Polled u)
      (hg : (∃ x, g = (s.engine i.engine).scalarSeed i.engine.consts x) ∨
        ∃ key, g = (s.engine i.engine).arraySeed i.engine.consts key)
      (hres : i.writesRes = false) (hext : i.extracts = false) :
      Effect i s (u.setEngine i.engine g)
  /-- It changes the key store (R128, R129). -/
  | keyed {g : Engine i.engine.width}
      (hg : g = (s.engine i.engine).keyClear ∨ ∃ v, (s.engine i.engine).keyAppend v = .ok g)
      (hkey : i.writesKey = true) (hres : i.writesRes = false) (hext : i.extracts = false) :
      Effect i s (s.setEngine i.engine g)
  /-- It discards words (R208, R209). -/
  | discarded {u : State} {c : Nat} (hu : s.Polled u) (hc : i.extracts = true → c ≠ 0) (hres : i.writesRes = false) :
      Effect i s ((fun u : State => u.afterWord i.engine)^[c] u)
  /-- It turns one or more words into a result (R37). -/
  | result {c : Nat} (v : Word64) (hc : c ≠ 0) (hres : i.writesRes = true) (hcause : s.cause i = none) :
      Effect i s (((fun u : State => u.afterWord i.engine)^[c] s).writeRes v)

section Effects

variable {i : Instr} {s t : State}

theorem effect_of_convertWord {f : BitVec i.engine.width → Word64} (h : s.convertWord i.engine f = .next t)
    (hres : i.writesRes = true) (hcause : s.cause i = none) : Effect i s t := by
  rw [State.convertWord_cases h]
  exact .result (c := 1) _ Nat.one_ne_zero hres hcause

theorem effect_of_res53 {e : EngineId} (h : execRes53 e s = .next t) : Effect (.res53 e) s t := by
  cases e with
  | mt64 =>
    obtain rfl := Host.Outcome.next.inj h
    exact .fault .illegal (.inl rfl) (.inr rfl)
  | mt32 =>
    simp only [execRes53] at h
    split at h
    · cases h
    · rename_i y1 s1 hx1
      split at h
      · cases h
      · rename_i y2 s2 hx2
        obtain rfl := Host.Outcome.next.inj h
        obtain ⟨-, rfl⟩ := State.extract_cases hx1
        obtain ⟨-, rfl⟩ := State.extract_cases hx2
        exact .result (i := .res53 .mt32) (c := 2) _ two_ne_zero rfl rfl

theorem effect_of_seedEnt {e : EngineId} (h : execSeedEnt e s = .next t) : Effect (.seedEnt e) s t := by
  obtain rfl := Host.Outcome.next.inj h
  cases ha : s.entropyAnswer with
  | data r => exact .seeded (i := .seedEnt e) (.inr rfl) (.inl ⟨r, rfl⟩) rfl rfl
  | fail => exact .fault .entropy (.inr rfl) (.inl (by simp [State.cause, ha]))

theorem effect_of_keyPush {e : EngineId} {opa : Word64} (h : execKeyPush e opa s = .next t) :
    Effect (.keyPush e opa) s t := by
  unfold execKeyPush at h
  split at h
  · rename_i hfull
    obtain rfl := Host.Outcome.next.inj h
    exact .fault .keyFull (.inl rfl) (.inl (by simp [State.cause, hfull]))
  · split at h
    · rename_i g hg
      obtain rfl := Host.Outcome.next.inj h
      exact .keyed (i := .keyPush e opa) (.inr ⟨_, hg⟩) rfl rfl rfl
    · cases h

theorem effect_of_seedArr {e : EngineId} (h : execSeedArr e s = .next t) : Effect (.seedArr e) s t := by
  unfold execSeedArr at h
  split at h
  · rename_i hempty
    obtain rfl := Host.Outcome.next.inj h
    exact .fault .keyEmpty (.inl rfl) (.inl (by simp [State.cause, hempty]))
  · split at h
    · rename_i key hkey
      obtain rfl := Host.Outcome.next.inj h
      exact .seeded (i := .seedArr e) (.inl rfl) (.inr ⟨key, rfl⟩) rfl rfl
    · cases h

theorem effect_of_bounded {e : EngineId} {opa : Word64} (h : execBounded e opa s = .next t) :
    Effect (.bounded e opa) s t := by
  unfold execBounded at h
  split at h
  · rename_i hn
    obtain rfl := Host.Outcome.next.inj h
    exact .fault .bound (.inl rfl) (.inl (by simp [State.cause, hn]))
  · rename_i hn
    exact effect_of_convertWord (i := .bounded e opa) h rfl (if_neg hn)

theorem effect_of_warmup {e : EngineId} {opa : Word64} (h : execWarmup e opa s = .next t) :
    Effect (.warmup e opa) s t := by
  rw [State.discardWords_cases h]
  refine .discarded (i := .warmup e opa) (.inl rfl) (fun hx h0 => ?_) rfl
  exact of_decide_eq_true hx (BitVec.eq_of_toNat_eq h0)

theorem effect_of_warmupEnt {e : EngineId} (h : execWarmupEnt e s = .next t) : Effect (.warmupEnt e) s t := by
  unfold execWarmupEnt at h
  split at h
  · rename_i ha
    obtain rfl := Host.Outcome.next.inj h
    exact .fault .entropy (.inr rfl) (.inl (by simp [State.cause, ha]))
  · rename_i r ha
    rw [State.discardWords_cases h]
    exact .discarded (i := .warmupEnt e) (.inr rfl) (fun _ => (warmupCount_spec r).1.ne_zero) rfl

/-- Every command has one of the five effects. -/
theorem effect_of_exec (h : exec i s = .next t) : Effect i s t := by
  cases i with
  | seed e opa =>
    obtain rfl := Host.Outcome.next.inj h
    exact .seeded (i := .seed e opa) (.inl rfl) (.inl ⟨opa, rfl⟩) rfl rfl
  | seedEnt e => exact effect_of_seedEnt h
  | keyClr e =>
    obtain rfl := Host.Outcome.next.inj h
    exact .keyed (i := .keyClr e) (.inl rfl) rfl rfl rfl
  | keyPush e opa => exact effect_of_keyPush h
  | seedArr e => exact effect_of_seedArr h
  | next e => exact effect_of_convertWord (i := .next e) h rfl rfl
  | nextS e => exact effect_of_convertWord (i := .nextS e) h rfl rfl
  | nextPos e => exact effect_of_convertWord (i := .nextPos e) h rfl rfl
  | nextT32 e => exact effect_of_convertWord (i := .nextT32 e) h rfl rfl
  | bounded e opa => exact effect_of_bounded h
  | real1 e => exact effect_of_convertWord (i := .real1 e) h rfl rfl
  | real2 e => exact effect_of_convertWord (i := .real2 e) h rfl rfl
  | real3 e => exact effect_of_convertWord (i := .real3 e) h rfl rfl
  | res53 e => exact effect_of_res53 h
  | warmup e opa => exact effect_of_warmup h
  | warmupEnt e => exact effect_of_warmupEnt h

/-! ## What holds of each effect -/

theorem State.Polled.inv {u : State} (hu : s.Polled u) (h : s.Inv) : u.Inv := by
  obtain rfl | rfl := hu
  · exact h
  · exact State.inv_afterEntropy h

theorem State.Polled.params_eq {u : State} (hu : s.Polled u) : u.params = s.params := by
  obtain rfl | rfl := hu <;> simp

theorem State.Polled.engine_eq {u : State} (hu : s.Polled u) (e : EngineId) : u.engine e = s.engine e := by
  obtain rfl | rfl := hu <;> simp

theorem State.Polled.res_eq {u : State} (hu : s.Polled u) : u.res = s.res ∧ u.resValid = s.resValid := by
  obtain rfl | rfl := hu <;> simp

/-- Every command keeps the machine's invariant. -/
theorem Effect.inv (h : Effect i s t) (hs : s.Inv) : t.Inv := by
  have hg := hs.engine_inv i.engine
  cases h with
  | fault c hu => exact State.inv_raiseFault (hu.inv hs) c
  | seeded hu hseed =>
    refine State.inv_setEngine (hu.inv hs) _ ?_
    rw [hu.params_eq]
    obtain ⟨x, rfl⟩ | ⟨key, rfl⟩ := hseed
    · exact Engine.inv_scalarSeed hg x
    · exact Engine.inv_arraySeed hg (consts_range _).2.1 key
  | keyed hkeyed =>
    refine State.inv_setEngine hs _ ?_
    obtain rfl | ⟨v, hv⟩ := hkeyed
    · exact Engine.inv_keyClear hg
    · exact Engine.inv_keyAppend hg hv
  | discarded hu => exact State.inv_iterate_afterWord (hu.inv hs) _ _
  | result v => exact State.inv_writeRes (State.inv_iterate_afterWord hs _ _) v

/-- A command that extracts and takes no fault primes the engine it selects. -/
theorem Effect.primed (h : Effect i s t) (hs : s.Inv) (hcause : s.cause i = none) (hwf : i.wellFormed = true)
    (hext : i.extracts = true) : (t.engine i.engine).Primed i.engine.consts := by
  cases h with
  | fault c _ hc => simp [hcause, hwf] at hc
  | seeded _ _ _ hx => simp [hext] at hx
  | keyed _ _ _ hx => simp [hext] at hx
  | discarded hu hc => exact State.primed_iterate_afterWord (hu.inv hs) _ (hc hext)
  | result v hc =>
    rw [State.writeRes_engine]
    exact State.primed_iterate_afterWord hs _ hc

/-- A command that is no result command, and a command that takes a fault, leave RES as it is. -/
theorem Effect.res_eq (h : Effect i s t) (hi : i.writesRes = false ∨ s.cause i ≠ none) :
    t.res = s.res ∧ t.resValid = s.resValid := by
  cases h with
  | fault c hu => simpa using hu.res_eq
  | seeded hu => simpa using hu.res_eq
  | keyed => simp
  | discarded hu => simpa using hu.res_eq
  | result v _ hres hcause => simp [hres, hcause] at hi

/-- After a result command that takes no fault, RES has a value. -/
theorem Effect.resValid (h : Effect i s t) (hres : i.writesRes = true) (hwf : i.wellFormed = true)
    (hcause : s.cause i = none) : t.resValid = true := by
  cases h with
  | fault c _ hc => simp [hcause, hwf] at hc
  | seeded _ _ hr => simp [hres] at hr
  | keyed _ _ hr => simp [hres] at hr
  | discarded _ _ hr => simp [hres] at hr
  | result v => rfl

/-- A command that is no key command leaves every key store as it is, and any command leaves the other engine's. -/
theorem Effect.keyStore_eq (h : Effect i s t) {e : EngineId} (hi : i.writesKey = false ∨ e ≠ i.engine) :
    (t.engine e).key = (s.engine e).key ∧ (t.engine e).klen = (s.engine e).klen := by
  cases h with
  | fault c hu => simp [hu.engine_eq]
  | seeded hu hseed =>
    by_cases he : e = i.engine
    · subst he
      obtain ⟨x, rfl⟩ | ⟨key, rfl⟩ := hseed <;> simp
    · simp [State.engine_setEngine_of_ne _ he, hu.engine_eq]
  | keyed _ hkey =>
    have he : e ≠ i.engine := hi.resolve_left (by simp [hkey])
    simp [State.engine_setEngine_of_ne _ he]
  | discarded hu =>
    rw [← hu.engine_eq]
    exact State.iterate_afterWord_keyStore _ _
  | result v =>
    rw [State.writeRes_engine]
    exact State.iterate_afterWord_keyStore _ _

end Effects

/-- Settles O47: the engine has extracted at least one word, and an extraction primes it. -/
theorem extractionLeavesEnginePrimed : Obligations.ExtractionLeavesEnginePrimed :=
  fun _ _ _ hs hcause hwf h hext => (effect_of_exec h).primed hs hcause hwf hext

/-- Settles O49: of the five effects only a result writes RES. -/
theorem onlyResultCommandsWriteRes : Obligations.OnlyResultCommandsWriteRes := by
  intro i s t h
  refine ⟨fun hi => ?_, fun hres hwf hcause => ?_⟩
  · obtain ⟨hr, hv⟩ := (effect_of_exec h).res_eq hi
    exact ⟨by rw [State.hostRes, State.hostRes, hr, hv], hr⟩
  · exact if_pos ((effect_of_exec h).resValid hres hwf hcause)

/-- Settles O50: of the five effects only a change of the key store changes it, and that on the selected engine. -/
theorem onlyKeyCommandsChangeKeyStore : Obligations.OnlyKeyCommandsChangeKeyStore :=
  fun _ _ _ _ h hi => (effect_of_exec h).keyStore_eq hi

/-! ## One step, by the next input -/

section Steps

variable {s : State} {c : Command} {rest : List HostInput}

theorem step_of_nil (h : s.hostIn = []) : step s = .next s := by
  simp only [step, nextAction, h]

theorem step_of_rst (h : s.hostIn = .rst :: rest) : step s = .next (s.setHostIn rest).assertReset := by
  simp only [step, nextAction, h]

theorem step_of_offer_not_ready (h : s.hostIn = .offer c :: rest) (hr : ¬ s.ready = true) :
    step s = .next (s.setHostIn rest) := by
  have hr' : ¬ (s.setHostIn rest).ready = true := hr
  simp only [step, nextAction, h, acceptCommand, if_neg hr']

theorem step_of_offer_illegal {x : DecodeError} (h : s.hostIn = .offer c :: rest) (hr : s.ready = true)
    (hd : decode c = .error x) : step s = .next (((s.setHostIn rest).capture c).raiseFault .illegal) := by
  have hr' : (s.setHostIn rest).ready = true := hr
  simp only [step, nextAction, h, acceptCommand, if_pos hr', hd]

theorem step_of_offer_legal {i : Instr} (h : s.hostIn = .offer c :: rest) (hr : s.ready = true)
    (hd : decode c = .ok i) : step s = exec i ((s.setHostIn rest).capture c) := by
  have hr' : (s.setHostIn rest).ready = true := hr
  simp only [step, nextAction, h, acceptCommand, if_pos hr', hd]

/-- What a step can leave behind: one case for each thing the port does with the next input. -/
theorem step_cases {t : State} (h : step s = .next t) :
    t = s ∨ ∃ rest, t = (s.setHostIn rest).assertReset ∨ t = s.setHostIn rest ∨
      ∃ c, t = ((s.setHostIn rest).capture c).raiseFault .illegal ∨ ∃ i, Effect i ((s.setHostIn rest).capture c) t := by
  match hin : s.hostIn with
  | [] =>
    rw [step_of_nil hin] at h
    exact .inl (Host.Outcome.next.inj h).symm
  | .rst :: rest =>
    rw [step_of_rst hin] at h
    exact .inr ⟨rest, .inl (Host.Outcome.next.inj h).symm⟩
  | .offer c :: rest =>
    by_cases hr : s.ready = true
    · match hd : decode c with
      | .error x =>
        rw [step_of_offer_illegal hin hr hd] at h
        exact .inr ⟨rest, .inr (.inr ⟨c, .inl (Host.Outcome.next.inj h).symm⟩)⟩
      | .ok i =>
        rw [step_of_offer_legal hin hr hd] at h
        exact .inr ⟨rest, .inr (.inr ⟨c, .inr ⟨i, effect_of_exec h⟩⟩)⟩
    · rw [step_of_offer_not_ready hin hr] at h
      exact .inr ⟨rest, .inr (.inl (Host.Outcome.next.inj h).symm)⟩

end Steps

/-- Settles O5: a reset input establishes the invariant, and everything else a step does keeps it. -/
theorem stepKeepsInvariant : Obligations.StepKeepsInvariant := by
  intro s t hs h
  obtain rfl | ⟨rest, rfl | rfl | ⟨c, rfl | ⟨i, hi⟩⟩⟩ := step_cases h
  · exact hs
  · exact State.inv_assertReset hs.1
  · exact State.inv_setHostIn hs rest
  · exact State.inv_raiseFault (State.inv_capture (State.inv_setHostIn hs rest) c) .illegal
  · exact hi.inv (State.inv_capture (State.inv_setHostIn hs rest) c)

end Sys2Proof.Machine
end

section
/-! What the spec leaves unspecified (R36, R37, R44) cannot be observed (R46): each operation takes states that agree to states
that agree. -/

namespace Sys2Proof.Machine

/-! ## Engines that agree -/

section Engines

variable {w : Nat} {k : Consts w} {kmax : Nat} {g h : Engine w}

theorem Engine.agree_refl (g : Engine w) : g.Agree g :=
  ⟨rfl, rfl, rfl, rfl, rfl, rfl, fun _ => rfl, fun _ => rfl⟩

theorem Engine.Agree.scalarSeed (ha : g.Agree h) (x : Word64) : (g.scalarSeed k x).Agree (h.scalarSeed k x) := by
  obtain ⟨-, -, hklen, hlen, htake, -⟩ := ha
  exact ⟨rfl, rfl, hklen, hlen, htake, rfl, fun _ => rfl, fun hr => absurd rfl hr⟩

theorem Engine.Agree.arraySeed (ha : g.Agree h) (key : List (BitVec w)) :
    (g.arraySeed k key).Agree (h.arraySeed k key) := by
  obtain ⟨-, -, hklen, hlen, htake, -⟩ := ha
  exact ⟨rfl, rfl, hklen, hlen, htake, rfl, fun _ => rfl, fun hr => absurd rfl hr⟩

theorem Engine.Agree.keyClear (ha : g.Agree h) : g.keyClear.Agree h.keyClear := by
  obtain ⟨hseed, hrem, -, hlen, -, hbuf⟩ := ha
  exact ⟨hseed, hrem, rfl, hlen, rfl, hbuf⟩

/-- The key store is read below `KLEN` only. -/
theorem Engine.Agree.keyWords_eq (ha : g.Agree h) : h.keyWords = g.keyWords := by
  obtain ⟨-, -, hklen, hlen, htake, -⟩ := ha
  simp only [Engine.keyWords, hklen, hlen, htake]

theorem Engine.keyWords_of_inv (hg : g.Inv k kmax) : g.keyWords = .ok (g.key.take g.klen) := by
  obtain ⟨-, -, -, -, -, -, hlen, hle⟩ := hg
  exact if_pos (by omega)

theorem Engine.keyAppend_of_lt (hlt : g.klen < g.key.length) (v : BitVec w) :
    g.keyAppend v = .ok { g with key := g.key.set g.klen v, klen := g.klen + 1 } := if_pos hlt

/-- The word that is pushed stands at the first index where the two stores may differ. -/
theorem Engine.Agree.keyAppend (ha : g.Agree h) (hlt : g.klen < g.key.length) (v : BitVec w) :
    ∃ g' h', g.keyAppend v = .ok g' ∧ h.keyAppend v = .ok h' ∧ g'.Agree h' := by
  obtain ⟨hseed, hrem, hklen, hlen, htake, hbuf⟩ := ha
  have hlt' : h.klen < h.key.length := by omega
  refine ⟨_, _, Engine.keyAppend_of_lt hlt v, Engine.keyAppend_of_lt hlt' v, hseed, hrem, ?_, ?_, ?_, hbuf⟩
  · simp only [hklen]
  · simp only [List.length_set, hlen]
  · simp only [hklen, List.take_add_one, List.take_set, htake]
    simp [hlt, hlen]

/-- Two engines whose buffers agree if they are seeded regenerate to the same buffer: the default seed overwrites what
stands in an engine that is not seeded (R160). -/
theorem Engine.regenerate_buf_congr (hseed : h.seeded = g.seeded) (hbuf : g.seeded = true → h.buf = g.buf) :
    (h.regenerate k).buf = (g.regenerate k).buf := by
  cases hg : g.seeded with
  | true => simp [hg, hseed, hbuf hg]
  | false => simp [hg, hseed]

/-- The first two lines of R180 leave the same buffer and the same counters: with `remaining` = 1 the sweep makes the
buffer and sets `cursor`; otherwise the invariant says the engine is seeded, and both agree already. -/
theorem Engine.Agree.refill (ha : g.Agree h) (hg : g.Inv k kmax) :
    (h.refill k).buf = (g.refill k).buf ∧ (h.refill k).remaining = (g.refill k).remaining ∧
    (h.refill k).cursor = (g.refill k).cursor ∧ (h.refill k).seeded = (g.refill k).seeded := by
  obtain ⟨hseed, hrem, -, -, -, -, hbuf, hcur⟩ := ha
  obtain ⟨-, hpos, -, -, -, hunseeded, -⟩ := hg
  by_cases hr : g.remaining = 1
  · rw [Engine.refill_of_one hr, Engine.refill_of_one (hrem.trans hr)]
    exact ⟨Engine.regenerate_buf_congr hseed hbuf, rfl, rfl, by simp⟩
  · have hs : g.seeded = true := by simpa using mt hunseeded hr
    rw [Engine.refill_of_two_le (g := g) (by omega), Engine.refill_of_two_le (g := h) (by omega)]
    exact ⟨hbuf hs, congrArg (· - 1) hrem, hcur hr, hseed⟩

/-- One extraction takes the same word from two engines that agree, and leaves engines that agree. -/
theorem Engine.Agree.afterExtract (ha : g.Agree h) (hg : g.Inv k kmax) :
    loopRead (h.refill k).buf (h.refill k).cursor = loopRead (g.refill k).buf (g.refill k).cursor ∧
    Engine.Agree { g.refill k with cursor := (g.refill k).cursor + 1 }
      { h.refill k with cursor := (h.refill k).cursor + 1 } := by
  obtain ⟨hbuf, hrem, hcur, hseed⟩ := ha.refill hg
  obtain ⟨-, -, hklen, hlen, htake, -⟩ := ha
  refine ⟨by rw [hbuf, hcur], hseed, hrem, ?_, ?_, ?_, congrArg _ hbuf, fun _ => hbuf, fun _ => congrArg (· + 1) hcur⟩
  · simpa using hklen
  · simpa using hlen
  · simpa using htake

end Engines

/-! ## States that agree -/

section States

variable {s t : State}

theorem State.Agree.engine (h : s.Agree t) (e : EngineId) : (s.engine e).Agree (t.engine e) := by
  obtain ⟨h32, h64, -⟩ := h
  cases e
  · exact h32
  · exact h64

theorem State.Agree.klen_eq (h : s.Agree t) (e : EngineId) : (t.engine e).klen = (s.engine e).klen := by
  obtain ⟨-, -, hklen, -⟩ := h.engine e
  exact hklen

theorem State.Agree.params_eq (h : s.Agree t) : t.params = s.params := by
  obtain ⟨-, -, -, -, -, -, -, hparams, -⟩ := h
  exact hparams

theorem State.Agree.hostIn_eq (h : s.Agree t) : t.hostIn = s.hostIn := by
  obtain ⟨-, -, -, -, -, -, -, -, hhost, -⟩ := h
  exact hhost

theorem State.Agree.ready_eq (h : s.Agree t) : t.ready = s.ready := by
  obtain ⟨-, -, -, -, hstatus, -⟩ := h
  exact congrArg statusReady hstatus

theorem State.Agree.entropyAnswer_eq (h : s.Agree t) : t.entropyAnswer = s.entropyAnswer := by
  obtain ⟨-, -, -, -, -, -, -, -, -, hin, hdraws⟩ := h
  simp only [State.entropyAnswer, hin, hdraws]

theorem State.Agree.setEngine (h : s.Agree t) (e : EngineId) {g g' : Engine e.width} (hg : g.Agree g') :
    (s.setEngine e g).Agree (t.setEngine e g') := by
  obtain ⟨h32, h64, hrest⟩ := h
  cases e
  · exact ⟨hg, h64, hrest⟩
  · exact ⟨h32, hg, hrest⟩

theorem State.Agree.writeRes (h : s.Agree t) (v : Word64) : (s.writeRes v).Agree (t.writeRes v) := by
  obtain ⟨h32, h64, -, -, hrest⟩ := h
  exact ⟨h32, h64, rfl, rfl, hrest⟩

theorem State.Agree.capture (h : s.Agree t) (c : Command) : (s.capture c).Agree (t.capture c) := h

theorem State.Agree.setHostIn (h : s.Agree t) (rest : List HostInput) :
    (s.setHostIn rest).Agree (t.setHostIn rest) := by
  obtain ⟨h32, h64, hres, hval, hstatus, hfcmd, hfopa, hparams, -, hentropy⟩ := h
  exact ⟨h32, h64, hres, hval, hstatus, hfcmd, hfopa, hparams, rfl, hentropy⟩

theorem State.Agree.afterEntropy (h : s.Agree t) : s.afterEntropy.Agree t.afterEntropy := by
  obtain ⟨h32, h64, hres, hval, hstatus, hfcmd, hfopa, hparams, hhost, hin, hdraws⟩ := h
  simp only [State.afterEntropy, hin]
  split
  · exact ⟨h32, h64, hres, hval, hstatus, hfcmd, hfopa, hparams, hhost, rfl, hdraws⟩
  · exact ⟨h32, h64, hres, hval, hstatus, hfcmd, hfopa, hparams, hhost, rfl, congrArg (· + 1) hdraws⟩

/-- Fault entry reads the captured command (R251), so that has to be the same. -/
theorem State.Agree.raiseFault (h : s.Agree t) (hcw : t.cw = s.cw) (hopa : t.opa = s.opa) (c : FaultCode) :
    (s.raiseFault c).Agree (t.raiseFault c) := by
  obtain ⟨h32, h64, hres, hval, hstatus, -, -, hrest⟩ := h
  exact ⟨h32, h64, hres, hval, congrArg (statusAfterFault · c) hstatus, hcw, hopa, hrest⟩

theorem State.Agree.assertReset (h : s.Agree t) : s.assertReset.Agree t.assertReset := by
  obtain ⟨-, -, -, -, -, -, -, hparams, hinputs⟩ := h
  refine ⟨?_, ?_, rfl, rfl, rfl, rfl, rfl, hparams, hinputs⟩
  · rw [State.assertReset_mt32, State.assertReset_mt32, hparams]
    exact Engine.agree_refl _
  · rw [State.assertReset_mt64, State.assertReset_mt64, hparams]
    exact Engine.agree_refl _

theorem State.Agree.nextWord_eq (h : s.Agree t) (hs : s.Inv) (e : EngineId) : t.nextWord e = s.nextWord e :=
  congrArg (temper e) ((h.engine e).afterExtract (hs.engine_inv e)).1

theorem State.Agree.afterWord (h : s.Agree t) (hs : s.Inv) (e : EngineId) : (s.afterWord e).Agree (t.afterWord e) :=
  h.setEngine e ((h.engine e).afterExtract (hs.engine_inv e)).2

theorem State.Agree.iterate_afterWord (h : s.Agree t) (hs : s.Inv) (e : EngineId) (c : Nat) :
    ((fun u : State => u.afterWord e)^[c] s).Agree ((fun u : State => u.afterWord e)^[c] t) := by
  induction c generalizing s t with
  | zero => exact h
  | succ c ih => exact ih (h.afterWord hs e) (State.inv_afterWord hs e)

end States

/-! ## Commands on states that agree -/

/-- Two outcomes that are both a next state, and states that agree. -/
def AnswerAlike (o o' : Host.Outcome State Fault Refusal) : Prop :=
  ∃ s t, o = .next s ∧ o' = .next t ∧ s.Agree t

theorem answerAlike_next {s t : State} (h : s.Agree t) : AnswerAlike (.next s) (.next t) := ⟨s, t, rfl, rfl, h⟩

/-- Two states of the invariant that agree and have captured the same command. -/
structure State.CapturedAlike (s t : State) : Prop where
  inv_left : s.Inv
  inv_right : t.Inv
  agree : s.Agree t
  cw_eq : t.cw = s.cw
  opa_eq : t.opa = s.opa

section Commands

variable {s t : State}

theorem State.CapturedAlike.afterEntropy (h : s.CapturedAlike t) : s.afterEntropy.CapturedAlike t.afterEntropy where
  inv_left := State.inv_afterEntropy h.inv_left
  inv_right := State.inv_afterEntropy h.inv_right
  agree := h.agree.afterEntropy
  cw_eq := by simpa using h.cw_eq
  opa_eq := by simpa using h.opa_eq

theorem answerAlike_raiseFault (h : s.CapturedAlike t) (c : FaultCode) :
    AnswerAlike (.next (s.raiseFault c)) (.next (t.raiseFault c)) :=
  answerAlike_next (h.agree.raiseFault h.cw_eq h.opa_eq c)

theorem answerAlike_convertWord (h : s.CapturedAlike t) (e : EngineId) (f : BitVec e.width → Word64) :
    AnswerAlike (s.convertWord e f) (t.convertWord e f) := by
  rw [State.convertWord_of_inv h.inv_left, State.convertWord_of_inv h.inv_right, h.agree.nextWord_eq h.inv_left]
  exact answerAlike_next ((h.agree.afterWord h.inv_left e).writeRes _)

theorem answerAlike_discardWords (h : s.CapturedAlike t) (e : EngineId) (c : Nat) :
    AnswerAlike (s.discardWords e c) (t.discardWords e c) := by
  rw [State.discardWords_of_inv h.inv_left, State.discardWords_of_inv h.inv_right]
  exact answerAlike_next (h.agree.iterate_afterWord h.inv_left e c)

theorem answerAlike_seed (h : s.CapturedAlike t) (e : EngineId) (x : Word64) :
    AnswerAlike (execSeed e x s) (execSeed e x t) :=
  answerAlike_next (h.agree.setEngine e ((h.agree.engine e).scalarSeed x))

theorem answerAlike_seedEnt (h : s.CapturedAlike t) (e : EngineId) : AnswerAlike (execSeedEnt e s) (execSeedEnt e t) := by
  simp only [execSeedEnt, h.agree.entropyAnswer_eq]
  split
  · exact answerAlike_next (h.agree.afterEntropy.setEngine e ((h.agree.engine e).scalarSeed _))
  · exact answerAlike_raiseFault h.afterEntropy .entropy

theorem answerAlike_keyPush (h : s.CapturedAlike t) (e : EngineId) (opa : Word64) :
    AnswerAlike (execKeyPush e opa s) (execKeyPush e opa t) := by
  obtain ⟨-, -, -, -, -, -, hlen, hle⟩ := h.inv_left.engine_inv e
  simp only [execKeyPush, h.agree.klen_eq, h.agree.params_eq]
  split
  · exact answerAlike_raiseFault h .keyFull
  · obtain ⟨g, g', hg, hg', hgg⟩ := (h.agree.engine e).keyAppend (by omega) (keyOperand e.width opa)
    rw [hg, hg']
    exact answerAlike_next (h.agree.setEngine e hgg)

theorem answerAlike_seedArr (h : s.CapturedAlike t) (e : EngineId) : AnswerAlike (execSeedArr e s) (execSeedArr e t) := by
  simp only [execSeedArr, h.agree.klen_eq, (h.agree.engine e).keyWords_eq, Engine.keyWords_of_inv (h.inv_left.engine_inv e)]
  split
  · exact answerAlike_raiseFault h .keyEmpty
  · exact answerAlike_next (h.agree.setEngine e ((h.agree.engine e).arraySeed _))

theorem answerAlike_bounded (h : s.CapturedAlike t) (e : EngineId) (opa : Word64) :
    AnswerAlike (execBounded e opa s) (execBounded e opa t) := by
  unfold execBounded
  split
  · exact answerAlike_raiseFault h .bound
  · exact answerAlike_convertWord h e _

theorem execRes53_of_inv (h : s.Inv) : execRes53 .mt32 s = .next (((s.afterWord .mt32).afterWord .mt32).writeRes
    (res53Bits (s.nextWord .mt32) ((s.afterWord .mt32).nextWord .mt32))) := by
  simp only [execRes53, State.extract_of_inv h, State.extract_of_inv (State.inv_afterWord h _)]

theorem answerAlike_res53 (h : s.CapturedAlike t) (e : EngineId) : AnswerAlike (execRes53 e s) (execRes53 e t) := by
  cases e with
  | mt64 => exact answerAlike_raiseFault h .illegal
  | mt32 =>
    have hone := h.agree.afterWord h.inv_left .mt32
    have hinv := State.inv_afterWord h.inv_left .mt32
    rw [execRes53_of_inv h.inv_left, execRes53_of_inv h.inv_right, h.agree.nextWord_eq h.inv_left, hone.nextWord_eq hinv]
    exact answerAlike_next ((hone.afterWord hinv .mt32).writeRes _)

theorem answerAlike_warmupEnt (h : s.CapturedAlike t) (e : EngineId) :
    AnswerAlike (execWarmupEnt e s) (execWarmupEnt e t) := by
  simp only [execWarmupEnt, h.agree.entropyAnswer_eq]
  split
  · exact answerAlike_raiseFault h.afterEntropy .entropy
  · exact answerAlike_discardWords h.afterEntropy e _

/-- Every command answers alike on two states that agree. -/
theorem answerAlike_exec (h : s.CapturedAlike t) (i : Instr) : AnswerAlike (exec i s) (exec i t) := by
  have hparams := h.agree.params_eq
  cases i with
  | seed e opa => exact answerAlike_seed h e opa
  | seedEnt e => exact answerAlike_seedEnt h e
  | keyClr e => exact answerAlike_next (h.agree.setEngine e (h.agree.engine e).keyClear)
  | keyPush e opa => exact answerAlike_keyPush h e opa
  | seedArr e => exact answerAlike_seedArr h e
  | next e => exact answerAlike_convertWord h e _
  | nextS e => exact answerAlike_convertWord h e _
  | nextPos e => exact answerAlike_convertWord h e _
  | nextT32 e =>
    simp only [exec, execNextT32, hparams]
    exact answerAlike_convertWord h e _
  | bounded e opa => exact answerAlike_bounded h e opa
  | real1 e =>
    simp only [exec, execReal1, hparams]
    exact answerAlike_convertWord h e _
  | real2 e => exact answerAlike_convertWord h e _
  | real3 e => exact answerAlike_convertWord h e _
  | res53 e => exact answerAlike_res53 h e
  | warmup e opa => exact answerAlike_discardWords h e _
  | warmupEnt e => exact answerAlike_warmupEnt h e

end Commands

/-! ## Steps of states that agree -/

/-- Acceptance captures the same command in both states, whatever they had captured before (R40). -/
theorem State.Agree.capturedAlike {s t : State} (h : s.Agree t) (hs : s.Inv) (ht : t.Inv) (rest : List HostInput)
    (c : Command) : ((s.setHostIn rest).capture c).CapturedAlike ((t.setHostIn rest).capture c) where
  inv_left := State.inv_capture (State.inv_setHostIn hs rest) c
  inv_right := State.inv_capture (State.inv_setHostIn ht rest) c
  agree := (h.setHostIn rest).capture c
  cw_eq := rfl
  opa_eq := rfl

theorem answerAlike_step {s t : State} (hs : s.Inv) (ht : t.Inv) (h : s.Agree t) : AnswerAlike (step s) (step t) := by
  have hhost := h.hostIn_eq
  match hin : s.hostIn with
  | [] =>
    rw [step_of_nil hin, step_of_nil (hhost.trans hin)]
    exact answerAlike_next h
  | .rst :: rest =>
    rw [step_of_rst hin, step_of_rst (hhost.trans hin)]
    exact answerAlike_next (h.setHostIn rest).assertReset
  | .offer c :: rest =>
    have hboth := h.capturedAlike hs ht rest c
    by_cases hr : s.ready = true
    · have hr' := h.ready_eq.trans hr
      match hd : decode c with
      | .error x =>
        rw [step_of_offer_illegal hin hr hd, step_of_offer_illegal (hhost.trans hin) hr' hd]
        exact answerAlike_raiseFault hboth .illegal
      | .ok i =>
        rw [step_of_offer_legal hin hr hd, step_of_offer_legal (hhost.trans hin) hr' hd]
        exact answerAlike_exec hboth i
    · rw [step_of_offer_not_ready hin hr, step_of_offer_not_ready (hhost.trans hin) (h.ready_eq ▸ hr)]
      exact answerAlike_next (h.setHostIn rest)

/-- Settles O52: no operation of a step reads an item in which two states that agree may differ before it is written. -/
theorem unspecifiedItemsAreUnobservable : Obligations.UnspecifiedItemsAreUnobservable := by
  intro s t s' hs ht h hstep
  obtain ⟨u, t', hu, ht', hagree⟩ := answerAlike_step hs ht h
  obtain rfl : u = s' := Host.Outcome.next.inj (hu.symm.trans hstep)
  exact ⟨t', ht', hagree⟩

end Sys2Proof.Machine
end

section
/-! The memories of the block (spec/20_memory.md): what a command reads and writes, what it leaves as it is, and that no index
leaves its array. -/

namespace Sys2Proof.Machine

/-! ## Changes of the state a command does not see (R78) -/

/-- The outcome with its next state changed by φ. -/
def mapNext (φ : State → State) : Host.Outcome State Fault Refusal → Host.Outcome State Fault Refusal
  | .next s => .next (φ s)
  | .fault x => .fault x
  | .refused r => .refused r

/-- φ changes nothing that a command on engine e reads of the engines and the parameters, and the updates a command on e
makes pass it. -/
structure Invisible (e : EngineId) (φ : State → State) : Prop where
  engine_eq : ∀ s, (φ s).engine e = s.engine e
  params_eq : ∀ s, (φ s).params = s.params
  setEngine_comm : ∀ s g, (φ s).setEngine e g = φ (s.setEngine e g)
  writeRes_comm : ∀ s v, (φ s).writeRes v = φ (s.writeRes v)
  raiseFault_comm : ∀ s c, (φ s).raiseFault c = φ (s.raiseFault c)

/-- φ leaves the entropy port (R259) as it is. -/
structure EntropyInvisible (φ : State → State) : Prop where
  entropyAnswer_eq : ∀ s, (φ s).entropyAnswer = s.entropyAnswer
  afterEntropy_comm : ∀ s, (φ s).afterEntropy = φ s.afterEntropy

section Commands

variable {e : EngineId} {φ : State → State}

theorem Invisible.extract (h : Invisible e φ) (s : State) :
    (φ s).extract e = (s.extract e).map fun (y, t) => (y, φ t) := by
  simp only [State.extract, h.engine_eq]
  cases (s.engine e).extractRaw e.consts with
  | ok yg => exact congrArg (fun t => Except.ok (temper e yg.1, t)) (h.setEngine_comm s yg.2)
  | error x => rfl

theorem Invisible.convertWord (h : Invisible e φ) (s : State) (f : BitVec e.width → Word64) :
    (φ s).convertWord e f = mapNext φ (s.convertWord e f) := by
  simp only [State.convertWord, h.extract]
  cases s.extract e with
  | ok yt => exact congrArg Host.Outcome.next (h.writeRes_comm yt.2 _)
  | error x => rfl

theorem Invisible.discardWords (h : Invisible e φ) (s : State) (c : Nat) :
    (φ s).discardWords e c = mapNext φ (s.discardWords e c) := by
  simp only [State.discardWords, h.engine_eq]
  cases (s.engine e).discard e.consts c with
  | ok g => exact congrArg Host.Outcome.next (h.setEngine_comm s g)
  | error x => rfl

theorem Invisible.raiseFault (h : Invisible e φ) (s : State) (c : FaultCode) :
    .next ((φ s).raiseFault c) = mapNext φ (.next (s.raiseFault c)) :=
  congrArg Host.Outcome.next (h.raiseFault_comm s c)

theorem Invisible.setEngine (h : Invisible e φ) (s : State) (g : Engine e.width) :
    .next ((φ s).setEngine e g) = mapNext φ (.next (s.setEngine e g)) :=
  congrArg Host.Outcome.next (h.setEngine_comm s g)

theorem Invisible.execSeed (h : Invisible e φ) (opa : Word64) (s : State) :
    execSeed e opa (φ s) = mapNext φ (execSeed e opa s) := by
  simp only [Machine.execSeed, h.engine_eq]
  exact h.setEngine s _

theorem Invisible.execSeedEnt (h : Invisible e φ) (hφ : EntropyInvisible φ) (s : State) :
    execSeedEnt e (φ s) = mapNext φ (execSeedEnt e s) := by
  simp only [Machine.execSeedEnt, hφ.entropyAnswer_eq, hφ.afterEntropy_comm, h.engine_eq]
  cases s.entropyAnswer with
  | data r => exact h.setEngine s.afterEntropy _
  | fail => exact h.raiseFault s.afterEntropy .entropy

theorem Invisible.execKeyClr (h : Invisible e φ) (s : State) : execKeyClr e (φ s) = mapNext φ (execKeyClr e s) := by
  simp only [Machine.execKeyClr, h.engine_eq]
  exact h.setEngine s _

theorem Invisible.execKeyPush (h : Invisible e φ) (opa : Word64) (s : State) :
    execKeyPush e opa (φ s) = mapNext φ (execKeyPush e opa s) := by
  simp only [Machine.execKeyPush, h.engine_eq, h.params_eq]
  split
  · exact h.raiseFault s .keyFull
  · cases (s.engine e).keyAppend (keyOperand e.width opa) with
    | ok g => exact h.setEngine s g
    | error x => rfl

theorem Invisible.execSeedArr (h : Invisible e φ) (s : State) : execSeedArr e (φ s) = mapNext φ (execSeedArr e s) := by
  simp only [Machine.execSeedArr, h.engine_eq]
  split
  · exact h.raiseFault s .keyEmpty
  · cases (s.engine e).keyWords with
    | ok key => exact h.setEngine s _
    | error x => rfl

theorem Invisible.execBounded (h : Invisible e φ) (opa : Word64) (s : State) :
    execBounded e opa (φ s) = mapNext φ (execBounded e opa s) := by
  unfold Machine.execBounded
  split
  · exact h.raiseFault s .bound
  · exact h.convertWord s _

theorem Invisible.execRes53 (h : Invisible e φ) (s : State) : execRes53 e (φ s) = mapNext φ (execRes53 e s) := by
  cases e with
  | mt64 => exact h.raiseFault s .illegal
  | mt32 =>
    simp only [Machine.execRes53, h.extract]
    cases s.extract .mt32 with
    | error x => rfl
    | ok yt =>
      simp only [Except.map, h.extract]
      cases yt.2.extract .mt32 with
      | error x => rfl
      | ok yu => exact congrArg Host.Outcome.next (h.writeRes_comm yu.2 _)

theorem Invisible.execWarmupEnt (h : Invisible e φ) (hφ : EntropyInvisible φ) (s : State) :
    execWarmupEnt e (φ s) = mapNext φ (execWarmupEnt e s) := by
  simp only [Machine.execWarmupEnt, hφ.entropyAnswer_eq, hφ.afterEntropy_comm]
  cases s.entropyAnswer with
  | data r => exact h.discardWords s.afterEntropy _
  | fail => exact h.raiseFault s.afterEntropy .entropy

end Commands

section Exec

variable {i : Instr} {φ : State → State}

/-- A command does the same whether or not the state is first changed by a φ it does not see. A φ that changes the entropy
inputs is one only the two commands that draw from them see. -/
theorem Invisible.exec (h : Invisible i.engine φ)
    (hφ : EntropyInvisible φ ∨ ∀ e, i ≠ .seedEnt e ∧ i ≠ .warmupEnt e) (s : State) :
    exec i (φ s) = mapNext φ (exec i s) := by
  cases i with
  | seed e opa => exact h.execSeed opa s
  | seedEnt e => exact h.execSeedEnt (hφ.resolve_right fun hne => (hne e).1 rfl) s
  | keyClr e => exact h.execKeyClr s
  | keyPush e opa => exact h.execKeyPush opa s
  | seedArr e => exact h.execSeedArr s
  | next e => exact h.convertWord s zext64
  | nextS e => exact h.convertWord s sext64
  | nextPos e => exact h.convertWord s _
  | nextT32 e =>
    simp only [Machine.exec, execNextT32, h.params_eq]
    exact h.convertWord s _
  | bounded e opa => exact h.execBounded opa s
  | real1 e =>
    simp only [Machine.exec, execReal1, h.params_eq]
    exact h.convertWord s _
  | real2 e => exact h.convertWord s _
  | real3 e => exact h.convertWord s _
  | res53 e => exact h.execRes53 s
  | warmup e opa => exact h.discardWords s _
  | warmupEnt e => exact h.execWarmupEnt (hφ.resolve_right fun hne => (hne e).2 rfl) s

theorem Invisible.exec_next (h : Invisible i.engine φ)
    (hφ : EntropyInvisible φ ∨ ∀ e, i ≠ .seedEnt e ∧ i ≠ .warmupEnt e) {s t : State} (ht : Machine.exec i s = .next t) :
    Machine.exec i (φ s) = .next (φ t) := by
  rw [h.exec hφ, ht]
  rfl

/-- A φ that the command does not see and that leaves s as it is leaves the state after the command as it is: what φ would
change, the command has not changed. -/
theorem Invisible.eq_of_fixed (h : Invisible i.engine φ)
    (hφ : EntropyInvisible φ ∨ ∀ e, i ≠ .seedEnt e ∧ i ≠ .warmupEnt e) {s t : State} (hs : φ s = s)
    (ht : Machine.exec i s = .next t) : φ t = t := by
  have hnext := h.exec_next hφ ht
  rw [hs, ht] at hnext
  exact (Host.Outcome.next.inj hnext).symm

end Exec

/-! ## The other engine (R78) -/

theorem State.setEngine_comm {e f : EngineId} (hne : f ≠ e) (s : State) (g : Engine f.width) (g' : Engine e.width) :
    (s.setEngine f g).setEngine e g' = (s.setEngine e g').setEngine f g := by
  cases e <;> cases f
  · exact absurd rfl hne
  · rfl
  · rfl
  · exact absurd rfl hne

theorem State.raiseFault_setEngine (s : State) (e : EngineId) (g : Engine e.width) (c : FaultCode) :
    (s.setEngine e g).raiseFault c = (s.raiseFault c).setEngine e g := by cases e <;> rfl

theorem invisible_setEngine {e f : EngineId} (hne : f ≠ e) (g : Engine f.width) : Invisible e (·.setEngine f g) where
  engine_eq s := State.engine_setEngine_of_ne s hne.symm g
  params_eq s := State.setEngine_params s f g
  setEngine_comm s := State.setEngine_comm hne s g
  writeRes_comm s := State.writeRes_setEngine s f g
  raiseFault_comm s := State.raiseFault_setEngine s f g

theorem entropyInvisible_setEngine (f : EngineId) (g : Engine f.width) : EntropyInvisible (·.setEngine f g) where
  entropyAnswer_eq s := State.entropyAnswer_setEngine s f g
  afterEntropy_comm s := State.afterEntropy_setEngine s f g

/-- Settles O48: a command does not see what the other engine holds. Replacing that engine by itself leaves the state as it
is, so the command has not written it either. -/
theorem commandsUseOnlyTheirEngine : Obligations.CommandsUseOnlyTheirEngine := by
  intro i s t f g hne ht
  refine ⟨?_, (invisible_setEngine hne g).exec_next (.inl (entropyInvisible_setEngine f g)) ht⟩
  have hfix : t.setEngine f (s.engine f) = t :=
    (invisible_setEngine hne _).eq_of_fixed (.inl (entropyInvisible_setEngine f _)) (s.setEngine_engine f) ht
  rw [← hfix, State.engine_setEngine]

/-! ## No step stops (R71) -/

theorem State.agree_refl (s : State) : s.Agree s :=
  ⟨Engine.agree_refl _, Engine.agree_refl _, rfl, rfl, rfl, rfl, rfl, rfl, rfl, rfl, rfl⟩

/-- Settles O6: states of the invariant that agree both answer a next state, and a state agrees with itself. -/
theorem stepAlwaysAnswersNext : Obligations.StepAlwaysAnswersNext := by
  intro s hs
  obtain ⟨s', -, hstep, -⟩ := answerAlike_step hs hs s.agree_refl
  exact ⟨s', hstep⟩

/-! ## The frame of a command (R38 to R41, R259) -/

/-- The state with other entropy inputs. -/
def State.setEntropy (s : State) (answers : List EntropyAnswer) (draws : Nat) : State :=
  { s with entropyIn := answers, entropyDraws := draws }

/-- No engine, no parameter and no update but the answer to a request touches the entropy inputs. -/
theorem invisible_setEntropy (e : EngineId) (answers : List EntropyAnswer) (draws : Nat) :
    Invisible e (·.setEntropy answers draws) where
  engine_eq _ := by cases e <;> rfl
  params_eq _ := rfl
  setEngine_comm _ _ := by cases e <;> rfl
  writeRes_comm _ _ := rfl
  raiseFault_comm _ _ := rfl

section Frame

variable {i : Instr} {s t : State}

/-- A command that asks for no entropy leaves the entropy inputs as they are. -/
theorem entropy_eq_of_exec (hi : ∀ e, i ≠ .seedEnt e ∧ i ≠ .warmupEnt e) (ht : exec i s = .next t) :
    t.entropyIn = s.entropyIn ∧ t.entropyDraws = s.entropyDraws := by
  have hfix : t.setEntropy s.entropyIn s.entropyDraws = t :=
    (invisible_setEntropy i.engine s.entropyIn s.entropyDraws).eq_of_fixed (.inr hi) rfl ht
  rw [← hfix]
  exact ⟨rfl, rfl⟩

theorem State.Polled.port_eq {u : State} (hu : s.Polled u) :
    u.cw = s.cw ∧ u.opa = s.opa ∧ u.params = s.params ∧ u.hostIn = s.hostIn := by
  obtain rfl | rfl := hu <;> simp

theorem State.Polled.record_eq {u : State} (hu : s.Polled u) :
    u.status = s.status ∧ u.fcmd = s.fcmd ∧ u.fopa = s.fopa := by
  obtain rfl | rfl := hu <;> simp

/-- Every command leaves the captured command, the parameters and the inputs of the port as they are. -/
theorem Effect.port_eq (h : Effect i s t) : t.cw = s.cw ∧ t.opa = s.opa ∧ t.params = s.params ∧ t.hostIn = s.hostIn := by
  cases h with
  | fault c hu => simpa using hu.port_eq
  | seeded hu => simpa using hu.port_eq
  | keyed => simp
  | discarded hu => simpa [State.iterate_afterWord] using hu.port_eq
  | result v => simp [State.iterate_afterWord]

/-- A command that takes no fault leaves the fault record as it is. -/
theorem Effect.record_eq (h : Effect i s t) (hwf : i.wellFormed = true) (hcause : s.cause i = none) :
    t.status = s.status ∧ t.fcmd = s.fcmd ∧ t.fopa = s.fopa := by
  cases h with
  | fault c _ hc => simp [hcause, hwf] at hc
  | seeded hu => simpa using hu.record_eq
  | keyed => simp
  | discarded hu => simpa [State.iterate_afterWord] using hu.record_eq
  | result v => simp [State.iterate_afterWord]

end Frame

/-- Settles O51: the port and the fault record by the five effects of a command, the entropy inputs because only SEED_ENT
and WARMUP_ENT see them. -/
theorem commandFrame : Obligations.CommandFrame := by
  intro i s t hwf ht
  have heffect := effect_of_exec ht
  obtain ⟨hcw, hopa, hparams, hhost⟩ := heffect.port_eq
  exact ⟨hcw, hopa, hparams, hhost, heffect.record_eq hwf, fun hi => entropy_eq_of_exec hi ht⟩

end Sys2Proof.Machine
end

section
/-! The encoding of commands (spec/30_encoding.md): the fields of a command word, what decodes to what, what the port does
with an offered word, and the assembler. -/

namespace Sys2Proof

/-! ## The fields of a command word (R91) -/

/-- `E << 8` has E in bit 8, and 0 in every other bit. -/
theorem getLsbD_engineBit (e : EngineId) (j : Nat) :
    (e.bit <<< 8).getLsbD j = (decide (j = 8) && decide (e = .mt64)) := by
  cases e with
  | mt32 => simp [EngineId.bit]
  | mt64 =>
    have hbit : EngineId.mt64.bit <<< 8 = BitVec.twoPow 32 8 := rfl
    simp [hbit, BitVec.getLsbD_twoPow, eq_comm]

/-- The bits of `(E << 8) | OP`: those of OP below bit 8, E in bit 8, and 0 above it. -/
theorem getLsbD_engineBit_or_opcode (e : EngineId) (op : BitVec 8) (j : Nat) :
    ((e.bit <<< 8) ||| op.setWidth 32).getLsbD j = ((decide (j = 8) && decide (e = .mt64)) || op.getLsbD j) := by
  have hop : 32 ≤ j → op.getLsbD j = false := fun hj => BitVec.getLsbD_of_ge op j (by omega)
  rw [BitVec.getLsbD_or, getLsbD_engineBit, BitVec.getLsbD_setWidth]
  grind

/-- A command word is `(E << 8) | OP` exactly when its reserved field is 0 and its other two fields are E and OP. -/
theorem engineBit_or_opcode_eq_iff {cw : Word32} {e : EngineId} {op : BitVec 8} :
    (e.bit <<< 8) ||| op.setWidth 32 = cw ↔ cwReserved cw = 0 ∧ cwEngine cw = e ∧ cwOp cw = op := by
  constructor
  · rintro rfl
    refine ⟨BitVec.eq_of_getLsbD_eq fun j hj => ?_, ?_, BitVec.eq_of_getLsbD_eq fun j hj => ?_⟩
    · have hop : op.getLsbD (9 + j) = false := BitVec.getLsbD_of_ge op _ (by omega)
      have hne : 9 + j ≠ 8 := by omega
      simp only [cwReserved, BitVec.getLsbD_extractLsb', getLsbD_engineBit_or_opcode]
      simp [hop, hne]
    · simp only [cwEngine, getLsbD_engineBit_or_opcode]
      cases e <;> simp
    · have hne : j ≠ 8 := by omega
      simp only [cwOp, BitVec.getLsbD_extractLsb', getLsbD_engineBit_or_opcode]
      simp [hj, hne]
  · rintro ⟨hrsv, rfl, rfl⟩
    refine BitVec.eq_of_getLsbD_eq fun j hj => ?_
    have hbit : (cwReserved cw).getLsbD (j - 9) = false := by simp [hrsv]
    have hengine : decide (cwEngine cw = .mt64) = cw.getLsbD 8 := by simp [cwEngine]
    rw [getLsbD_engineBit_or_opcode, hengine]
    simp only [cwReserved, cwOp, BitVec.getLsbD_extractLsb'] at hbit ⊢
    grind

/-! ## What decodes to what (R93, R97, R99) -/

/-- The opcode map of R93 read backwards: a command is found under its own OP and E only, if it exists there, and it
carries the operand if its kind has one. -/
theorem decodeOp_eq_ok_iff {op : BitVec 8} {e : EngineId} {opa : Word64} {i : Instr} :
    decodeOp op e opa = .ok i ↔
      i.wellFormed = true ∧ i.engine = e ∧ i.opcode = op ∧ (i.operandKind ≠ .none → i.operand = opa) := by
  constructor
  · intro h
    unfold decodeOp at h
    split at h
    case h_14 hop => -- 0x23, RES53
      split at h
      · rename_i he
        obtain rfl := Except.ok.inj h
        exact ⟨rfl, he.symm, (BitVec.eq_of_toNat_eq hop).symm, by simp [Instr.operandKind]⟩
      · cases h
    case h_17 => cases h -- no OP of R93
    all_goals
      obtain rfl := Except.ok.inj h
      exact ⟨rfl, rfl, (BitVec.eq_of_toNat_eq ‹_›).symm, by simp [Instr.operandKind, Instr.operand]⟩
  · rintro ⟨hwf, rfl, rfl, hopa⟩
    cases i with
    | seed e a => cases hopa nofun; rfl
    | keyPush e a => cases hopa nofun; rfl
    | bounded e a => cases hopa nofun; rfl
    | warmup e a => cases hopa nofun; rfl
    | res53 e => cases of_decide_eq_true hwf; rfl
    | _ => rfl

theorem decode_eq_ok_iff_decodeOp {c : Command} {i : Instr} :
    decode c = .ok i ↔ cwReserved c.cw = 0 ∧ decodeOp (cwOp c.cw) (cwEngine c.cw) c.opa = .ok i := by
  unfold decode
  split
  · rename_i hrsv
    exact (and_iff_right hrsv).symm
  · rename_i hrsv
    exact iff_of_false nofun fun h => hrsv h.1

/-- A command decodes to i exactly when i exists, its word is the one the encoder gives i, and so is its operand where i's
kind has one. -/
theorem decode_eq_ok_iff {c : Command} {i : Instr} :
    decode c = .ok i ↔
      i.wellFormed = true ∧ (encode i).cw = c.cw ∧ (i.operandKind ≠ .none → (encode i).opa = c.opa) := by
  simp only [decode_eq_ok_iff_decodeOp, decodeOp_eq_ok_iff, encode, engineBit_or_opcode_eq_iff]
  grind

/-- Settles O13: the encoder's word and operand are the ones its command decodes from, so existence is all that is left. -/
theorem decodeOfEncode : Obligations.DecodeOfEncode :=
  fun i => by simp [decode_eq_ok_iff]

/-- Settles O14: one direction of what a command decodes to. -/
theorem encodeOfDecode : Obligations.EncodeOfDecode :=
  fun _ _ => decode_eq_ok_iff.mp

/-! ## The legal command words (R98) -/

/-- The encoder gives a legal command word to exactly the commands that exist. -/
theorem encode_cw_mem_legalWords_iff : ∀ i : Instr, (encode i).cw ∈ legalWords ↔ i.wellFormed = true
  | .seed e opa => Laws.EncodeLegal.seed e opa
  | .seedEnt e => Laws.EncodeLegal.seedEnt e
  | .keyClr e => Laws.EncodeLegal.keyClr e
  | .keyPush e opa => Laws.EncodeLegal.keyPush e opa
  | .seedArr e => Laws.EncodeLegal.seedArr e
  | .next e => Laws.EncodeLegal.next e
  | .nextS e => Laws.EncodeLegal.nextS e
  | .nextPos e => Laws.EncodeLegal.nextPos e
  | .nextT32 e => Laws.EncodeLegal.nextT32 e
  | .bounded e opa => Laws.EncodeLegal.bounded e opa
  | .real1 e => Laws.EncodeLegal.real1 e
  | .real2 e => Laws.EncodeLegal.real2 e
  | .real3 e => Laws.EncodeLegal.real3 e
  | .res53 e => Laws.EncodeLegal.res53 e
  | .warmup e opa => Laws.EncodeLegal.warmup e opa
  | .warmupEnt e => Laws.EncodeLegal.warmupEnt e

/-- Whether a command is legal depends on its command word only. -/
theorem decode_isOk_congr (cw : Word32) (a b : Word64) :
    (decode { cw := cw, opa := a }).isOk = (decode { cw := cw, opa := b }).isOk := by
  simp only [decode]
  split
  · unfold decodeOp
    split <;> rfl
  · rfl

theorem decode_isOk_of_mem_legalWords : ∀ cw ∈ legalWords, (decode { cw := cw, opa := 0 }).isOk = true :=
  List.all_eq_true.mp rfl

/-- Settles O15: a command that decodes has the word the encoder gives it, which is legal; and each of the 31 words decodes
with operand 0, hence with any operand. -/
theorem legalCommandWordsAreThirtyOne : Obligations.LegalCommandWordsAreThirtyOne := by
  refine ⟨fun cw opa => ⟨?_, fun hcw => ?_⟩, by decide, by decide⟩
  · rintro ⟨i, hi⟩
    obtain ⟨hwf, rfl, -⟩ := decode_eq_ok_iff.mp hi
    exact (encode_cw_mem_legalWords_iff i).mpr hwf
  · have hok := decode_isOk_of_mem_legalWords cw hcw
    rw [decode_isOk_congr cw 0 opa] at hok
    match hd : decode { cw := cw, opa := opa } with
    | .ok i => exact ⟨i, rfl⟩
    | .error x => simp [hd, Except.isOk, Except.toBool] at hok

/-- Settles O16: each word is decoded by evaluation. -/
theorem sampleWordsDecode : Obligations.SampleWordsDecode :=
  ⟨rfl, rfl, rfl, rfl, rfl, rfl, rfl, rfl, rfl, rfl⟩

/-! ## The illegal command words (R97) -/

/-- The sixteen OP values of R93. -/
def opcodes : List (BitVec 8) :=
  [0x01, 0x02, 0x03, 0x04, 0x05, 0x10, 0x11, 0x12, 0x13, 0x14, 0x20, 0x21, 0x22, 0x23, 0x30, 0x31]

theorem Instr.opcode_mem_opcodes (i : Instr) : i.opcode ∈ opcodes := by
  cases i <;> simp [Instr.opcode, opcodes]

/-- Only RES53 has OP 0x23, and it exists for E = 0 only. -/
theorem Instr.engine_eq_mt32_of_opcode_eq {i : Instr} (hwf : i.wellFormed = true) (hop : i.opcode = 0x23) :
    i.engine = .mt32 := by
  cases i
  case res53 e => exact of_decide_eq_true hwf
  all_goals simp [Instr.opcode] at hop

/-- A command word that R97 calls illegal, by any of the three clauses, decodes to no command. -/
theorem decode_eq_error_of_illegal {c : Command}
    (h : cwOp c.cw ∉ opcodes ∨ cwReserved c.cw ≠ 0 ∨ (cwOp c.cw = 0x23 ∧ c.cw.getLsbD 8 = true)) :
    ∃ x, decode c = .error x := by
  match hd : decode c with
  | .error x => exact ⟨x, rfl⟩
  | .ok i =>
    obtain ⟨hrsv, hdop⟩ := decode_eq_ok_iff_decodeOp.mp hd
    obtain ⟨hwf, hengine, hopcode, -⟩ := decodeOp_eq_ok_iff.mp hdop
    rcases h with hundef | hres | ⟨hres53, hbit⟩
    · exact absurd (hopcode ▸ i.opcode_mem_opcodes) hundef
    · exact absurd hrsv hres
    · have hmt32 := Instr.engine_eq_mt32_of_opcode_eq hwf (hopcode.trans hres53)
      simp [hengine, cwEngine, hbit] at hmt32

end Sys2Proof

namespace Sys2Proof.Machine

/-! ## What the port does with an offered command (R90, R97, R103, R252) -/

/-- Settles O7: the step runs the command in the state that has captured it. -/
theorem stepRunsDecodedCommand : Obligations.StepRunsDecodedCommand :=
  fun _ _ _ _ => step_of_offer_legal

/-- Settles O9: the step of the empty input list, and the step of an offer the port does not accept. -/
theorem nothingChangesWithoutAcceptance : Obligations.NothingChangesWithoutAcceptance :=
  ⟨fun _ => step_of_nil, fun _ _ _ hin hr => step_of_offer_not_ready hin (by simp [hr])⟩

/-- Fault entry (R251) writes the fields of STATUS whatever stood there. -/
theorem statusAfterFault_fields (st : Word32) (c : FaultCode) :
    statusFaulted (statusAfterFault st c) = true ∧ statusReady (statusAfterFault st c) = false ∧
    statusFcode (statusAfterFault st c) = c.fcode := by
  have hmask : ∀ j < 4, statusReservedMask.getLsbD (4 + j) = false := by decide
  refine ⟨?_, ?_, BitVec.eq_of_getLsbD_eq fun j hj => ?_⟩
  · simp [statusFaulted, statusAfterFault]
  · simp [statusReady, statusAfterFault, statusReservedMask]
  · have hlt : 4 + j < 32 ∧ j < 32 := by omega
    simp only [statusFcode, statusAfterFault, BitVec.getLsbD_extractLsb', BitVec.getLsbD_or, BitVec.getLsbD_and,
      hmask j hj]
    simp [hj, hlt]

/-- Fault entry takes the fault (R251) in every state. -/
theorem State.faultTaken_raiseFault (s : State) (c : FaultCode) : s.FaultTaken c (s.raiseFault c) := by
  obtain ⟨hfaulted, hready, hfcode⟩ := statusAfterFault_fields s.status c
  exact ⟨hfaulted, hready, hfcode, rfl, rfl, rfl, rfl, rfl, rfl, rfl, rfl, rfl, rfl⟩

/-- Settles O8: the word decodes to no command, and the port answers that with fault entry in the state that has captured
the word. -/
theorem illegalCommandWordFaults : Obligations.IllegalCommandWordFaults := by
  intro s c rest hin hr hillegal
  obtain ⟨x, hd⟩ := decode_eq_error_of_illegal hillegal
  exact ⟨_, step_of_offer_illegal hin hr hd, State.faultTaken_raiseFault _ .illegal⟩

/-! ## The operand of a command of kind NONE (R96) -/

/-- The state with another captured operand, and with it in FOPA where a fault has recorded it. -/
def State.setOperand (s : State) (opa : Word64) : State :=
  { s with opa := opa, fopa := if s.faulted then opa else s.fopa }

theorem State.raiseFault_setOperand (s : State) (opa : Word64) (c : FaultCode) :
    (s.setOperand opa).raiseFault c = (s.raiseFault c).setOperand opa := by
  have hfaulted : (s.raiseFault c).faulted = true := (statusAfterFault_fields s.status c).1
  simp [State.setOperand, hfaulted]
  rfl

/-- No command sees the captured operand: one that has an operand carries it. -/
theorem invisible_setOperand (e : EngineId) (opa : Word64) : Invisible e (·.setOperand opa) where
  engine_eq _ := by cases e <;> rfl
  params_eq _ := rfl
  setEngine_comm _ _ := by cases e <;> rfl
  writeRes_comm _ _ := rfl
  raiseFault_comm s c := s.raiseFault_setOperand opa c

theorem entropyInvisible_setOperand (opa : Word64) : EntropyInvisible (·.setOperand opa) where
  entropyAnswer_eq _ := rfl
  afterEntropy_comm s := by
    cases hin : s.entropyIn <;> simp only [State.afterEntropy, State.setOperand, hin] <;> rfl

theorem State.setOperand_capture {s : State} (h : s.faulted = false) (cw : Word32) (a b : Word64) :
    (s.capture { cw := cw, opa := a }).setOperand b = s.capture { cw := cw, opa := b } := by
  have hcapture : ¬ (s.capture { cw := cw, opa := a }).faulted = true := ne_true_of_eq_false h
  simp only [State.setOperand, if_neg hcapture]
  rfl

/-- From a state of the invariant every command answers a next state. -/
theorem exec_of_inv {s : State} (hs : s.Inv) (i : Instr) : ∃ t, exec i s = .next t := by
  obtain ⟨t, -, ht, -⟩ := answerAlike_exec ⟨hs, hs, s.agree_refl, rfl, rfl⟩ i
  exact ⟨t, ht⟩

/-- Settles O17: the command word alone decides what decodes, and the state that captures the one operand is the state that
captures the other but for the operand, which the command does not see. -/
theorem kindNoneIgnoresOperand : Obligations.KindNoneIgnoresOperand := by
  intro s cw a b i hs hfaulted hd hkind
  obtain ⟨hwf, hcw, -⟩ := decode_eq_ok_iff.mp hd
  refine ⟨decode_eq_ok_iff.mpr ⟨hwf, hcw, absurd hkind⟩, ?_⟩
  obtain ⟨t, ht⟩ := exec_of_inv (State.inv_capture hs { cw := cw, opa := a }) i
  refine ⟨t, ht, ?_⟩
  rw [← State.setOperand_capture hfaulted cw a b]
  exact (invisible_setOperand i.engine b).exec_next (.inl (entropyInvisible_setOperand b)) ht

/-! ## The assembler (R100, R101) -/

/-- Settles O53: the encoded operand is `BitVec.ofInt`, whose value is the integer modulo 2^64. -/
theorem assemblerEncodesOperands : Obligations.AssemblerEncodesOperands := by
  refine fun v => ⟨fun hv => ⟨BitVec.ofInt 64 v, if_pos hv, ?_⟩, fun hv => if_neg hv⟩
  rw [BitVec.toNat_ofInt, Int.toNat_of_nonneg (Int.emod_nonneg v (by norm_num))]
  norm_num

/-- Settles O54: only `seed_array` tests anything, the length of its key. -/
theorem pseudoInstructionsExpand : Obligations.PseudoInstructionsExpand := by
  refine fun kmax e => ⟨fun key hpos hle => ?_, fun key hlen => ?_, rfl, fun _ => rfl⟩
  · exact if_pos ⟨hpos, hle⟩
  · exact if_neg (by omega)

end Sys2Proof.Machine
end

section
/-! The seeding commands (spec/40_seeding.md): the buffers they fill, the key store, and the stream of words a seeding
fixes. -/

namespace Sys2Proof.Machine

/-! ## SEED (R120, R121, R126) -/

theorem encode_seed_cw (e : EngineId) (opa : Word64) : (encode (.seed e opa)).cw = e.word 0x001 0x101 :=
  show (encode (.seed e 0)).cw = e.word 0x001 0x101 by cases e <;> rfl

/-- ScalarSeed as R120 writes it: its loop runs over the engine's own buffer. -/
theorem Engine.scalarSeed_eq_scalarLoop {w : Nat} {k : Consts w} {g : Engine w} (hb : g.buf.length = k.n) (hn : 1 ≤ k.n)
    (x : Word64) :
    g.scalarSeed k x = { g with buf := scalarLoop k x g.buf, seeded := true, remaining := 1 } := by
  rw [← scalarWords_eq_scalarLoop k x g.buf hb hn]
  rfl

/-- ScalarSeed reads its seed through `trunc_W` only (R121). -/
theorem Engine.scalarSeed_congr {w : Nat} {k : Consts w} {g : Engine w} {a b : Word64}
    (h : a.setWidth w = b.setWidth w) : g.scalarSeed k a = g.scalarSeed k b := by
  simp only [Engine.scalarSeed, scalarWords, truncOpa, h]

section Commands

variable {s : State} {e : EngineId}

theorem exec_seed (x : Word64) :
    exec (.seed e x) s = .next (s.setEngine e ((s.engine e).scalarSeed e.consts x)) := rfl

/-- On MT64 the seed is `buf[0]` itself (R120). -/
theorem buf_zero_of_seed_mt64 {a : Word64} {t : State} (h : exec (.seed .mt64 a) s = .next t) :
    t.mt64.buf.getD 0 0 = a := by
  obtain rfl := Host.Outcome.next.inj h
  exact (scalarWords_zero constsMt64 a).trans (BitVec.setWidth_eq a)

/-! ## SEED_ENT (R127) -/

theorem exec_seedEnt_of_data {r : Word64} (h : s.entropyAnswer = .data r) :
    exec (.seedEnt e) s = .next (s.afterEntropy.setEngine e ((s.engine e).scalarSeed e.consts r)) := by
  simp only [exec, execSeedEnt, h]

theorem exec_seedEnt_of_fail (h : s.entropyAnswer = .fail) :
    exec (.seedEnt e) s = .next (s.afterEntropy.raiseFault .entropy) := by
  simp only [exec, execSeedEnt, h]

/-- The block is the same before and after the answer to an entropy request is used up (R41), so a fault taken after it is
a fault taken before it. -/
theorem State.faultTaken_raiseFault_afterEntropy (s : State) (c : FaultCode) :
    s.FaultTaken c (s.afterEntropy.raiseFault c) := by
  simpa only [State.FaultTaken, State.afterEntropy_cw, State.afterEntropy_opa, State.afterEntropy_mt32,
    State.afterEntropy_mt64, State.afterEntropy_res, State.afterEntropy_resValid, State.afterEntropy_params,
    State.afterEntropy_hostIn] using State.faultTaken_raiseFault s.afterEntropy c

/-! ## The key store (R128, R129) -/

theorem encode_keyPush_cw (e : EngineId) (opa : Word64) : (encode (.keyPush e opa)).cw = e.word 0x004 0x104 :=
  show (encode (.keyPush e 0)).cw = e.word 0x004 0x104 by cases e <;> rfl

theorem exec_keyClr : exec (.keyClr e) s = .next (s.setEngine e { s.engine e with klen := 0 }) := rfl

theorem exec_keyPush_of_lt {opa : Word64} (hlen : (s.engine e).key.length = s.params.kmax)
    (hlt : (s.engine e).klen < s.params.kmax) :
    exec (.keyPush e opa) s = .next (s.setEngine e
      { s.engine e with key := (s.engine e).key.set (s.engine e).klen (opa.setWidth e.width)
                        klen := (s.engine e).klen + 1 }) := by
  simp only [exec, execKeyPush, if_neg hlt.ne, Engine.keyAppend_of_lt (hlt.trans_eq hlen.symm)]
  rfl

theorem exec_keyPush_of_full {opa : Word64} (h : (s.engine e).klen = s.params.kmax) :
    exec (.keyPush e opa) s = .next (s.raiseFault .keyFull) := if_pos h

/-! ## SEED_ARR (R130) -/

theorem exec_seedArr_of_key (hle : (s.engine e).klen ≤ (s.engine e).key.length) (h0 : (s.engine e).klen ≠ 0) :
    exec (.seedArr e) s = .next (s.setEngine e
      ((s.engine e).arraySeed e.consts ((s.engine e).key.take (s.engine e).klen))) := by
  simp only [exec, execSeedArr, if_neg h0, Engine.keyWords, if_pos hle]

theorem exec_seedArr_of_empty (h : (s.engine e).klen = 0) :
    exec (.seedArr e) s = .next (s.raiseFault .keyEmpty) := if_pos h

end Commands

/-- ArraySeed as R122 to R124 write it: its loops run over the engine's own buffer. -/
theorem Engine.arraySeed_eq_arrayLoop {w : Nat} {k : Consts w} {g : Engine w} {key : List (BitVec w)}
    (hb : g.buf.length = k.n) (hn : 2 ≤ k.n) (hkey : key ≠ []) :
    g.arraySeed k key = { g with buf := arrayLoop k key g.buf, seeded := true, remaining := 1 } := by
  rw [← arrayWords_eq_arrayLoop k key g.buf hb hn hkey]
  rfl

/-- The key `KEY[0..KLEN-1]` has words as soon as `KLEN` is not 0 (R130). -/
theorem Engine.take_klen_ne_nil {w : Nat} {g : Engine w} (hle : g.klen ≤ g.key.length) (h0 : g.klen ≠ 0) :
    g.key.take g.klen ≠ [] := by
  rw [← List.length_pos_iff, List.length_take]
  omega

/-- Settles O18: ScalarSeed gives the buffer of R120's loop. -/
theorem seedRunsScalarSeedLoop : Obligations.SeedRunsScalarSeedLoop := by
  refine fun e opa => ⟨decode_eq_ok_iff.mpr ⟨rfl, encode_seed_cw e opa, fun _ => rfl⟩, fun s hb => ?_⟩
  rw [exec_seed, Engine.scalarSeed_eq_scalarLoop hb (one_le_two.trans (consts_range e).2.1)]

/-- Settles O19: ScalarSeed reads `trunc_W(s)` only, and on MT64 that is the seed and `buf[0]`. -/
theorem seedDependsOnTruncatedSeed : Obligations.SeedDependsOnTruncatedSeed := by
  refine ⟨fun e a b s hab => ⟨_, exec_seed a, ?_⟩, fun a b s t u hne ht hu => ?_⟩
  · rw [exec_seed, Engine.scalarSeed_congr hab]
  · rwa [buf_zero_of_seed_mt64 ht, buf_zero_of_seed_mt64 hu]

/-- Settles O20: one case for each answer of the entropy source. -/
theorem seedEntropySeedsOrFaults : Obligations.SeedEntropySeedsOrFaults := by
  refine fun e s => ⟨fun opa => decode_eq_ok_iff.mpr ⟨rfl, by cases e <;> rfl, absurd rfl⟩,
    fun r hr hb => ?_, fun hfail => ?_⟩
  · rw [exec_seedEnt_of_data hr, Engine.scalarSeed_eq_scalarLoop hb (one_le_two.trans (consts_range e).2.1)]
  · exact ⟨_, exec_seedEnt_of_fail hfail, s.faultTaken_raiseFault_afterEntropy .entropy⟩

/-- Settles O21: the command is one update of the engine. -/
theorem keyClearSetsLengthZero : Obligations.KeyClearSetsLengthZero :=
  fun e _ => ⟨fun _ => decode_eq_ok_iff.mpr ⟨rfl, by cases e <;> rfl, absurd rfl⟩, exec_keyClr⟩

/-- Settles O22: one case for each side of the test of `KLEN`. -/
theorem keyPushAppendsOrFaults : Obligations.KeyPushAppendsOrFaults :=
  fun e opa s => ⟨decode_eq_ok_iff.mpr ⟨rfl, encode_keyPush_cw e opa, fun _ => rfl⟩, exec_keyPush_of_lt,
    fun hfull => ⟨_, exec_keyPush_of_full hfull, s.faultTaken_raiseFault .keyFull⟩⟩

/-- Settles O23: ArraySeed gives the buffer of the loops of R122 to R124 for a key that is not empty. -/
theorem seedArrayRunsMixingLoops : Obligations.SeedArrayRunsMixingLoops := by
  refine fun e s => ⟨fun opa => decode_eq_ok_iff.mpr ⟨rfl, by cases e <;> rfl, absurd rfl⟩,
    fun hb hle h0 => ?_, fun hempty => ?_⟩
  · rw [exec_seedArr_of_key hle h0,
      Engine.arraySeed_eq_arrayLoop hb (consts_range e).2.1 (Engine.take_klen_ne_nil hle h0)]
  · exact ⟨_, exec_seedArr_of_empty hempty, s.faultTaken_raiseFault .keyEmpty⟩

/-! ## What the three seeding commands share (R131, R133) -/

/-- The commands that fill the buffer of engine e: SEED_ENT, SEED_ARR and SEED. -/
abbrev SeedsEngine (i : Instr) (e : EngineId) : Prop := i = .seedEnt e ∨ i = .seedArr e ∨ ∃ opa, i = .seed e opa

section Seeding

variable {i : Instr} {e : EngineId} {s t : State}

/-- What a seeding command can leave behind: a fault record, or the engine seeded by one of the two procedures. -/
theorem seeding_cases (hi : SeedsEngine i e) (h : exec i s = .next t) :
    ∃ u, s.Polled u ∧ ((s.cause i ≠ none ∧ ∃ c, t = u.raiseFault c) ∨
      (∃ x, t = u.setEngine e ((s.engine e).scalarSeed e.consts x)) ∨
      ∃ key, t = u.setEngine e ((s.engine e).arraySeed e.consts key)) := by
  obtain rfl | rfl | ⟨opa, rfl⟩ := hi
  · refine ⟨_, .inr rfl, ?_⟩
    cases ha : s.entropyAnswer with
    | data r =>
      rw [exec_seedEnt_of_data ha] at h
      exact .inr (.inl ⟨r, (Host.Outcome.next.inj h).symm⟩)
    | fail =>
      rw [exec_seedEnt_of_fail ha] at h
      exact .inl ⟨by simp [State.cause, ha], _, (Host.Outcome.next.inj h).symm⟩
  · refine ⟨_, .inl rfl, ?_⟩
    by_cases h0 : (s.engine e).klen = 0
    · rw [exec_seedArr_of_empty h0] at h
      exact .inl ⟨by simp [State.cause, h0], _, (Host.Outcome.next.inj h).symm⟩
    · by_cases hle : (s.engine e).klen ≤ (s.engine e).key.length
      · rw [exec_seedArr_of_key hle h0] at h
        exact .inr (.inr ⟨_, (Host.Outcome.next.inj h).symm⟩)
      · simp [exec, execSeedArr, h0, Engine.keyWords, hle] at h
  · exact ⟨_, .inl rfl, .inr (.inl ⟨opa, (Host.Outcome.next.inj h).symm⟩)⟩

/-- The buffer a seeding command that takes no fault leaves is that of one of the two procedures. -/
theorem buf_of_seeding (hi : SeedsEngine i e) (hcause : s.cause i = none) (h : exec i s = .next t) :
    (∃ x, (t.engine e).buf = scalarWords e.consts x) ∨ ∃ key, (t.engine e).buf = arrayWords e.consts key := by
  obtain ⟨u, -, ⟨hfault, -⟩ | ⟨x, rfl⟩ | ⟨key, rfl⟩⟩ := seeding_cases hi h
  · exact absurd hcause hfault
  · exact .inl ⟨x, by simp⟩
  · exact .inr ⟨key, by simp⟩

end Seeding

/-- Settles O24: neither fault entry nor either procedure writes `cursor` or RES, and both procedures prime. -/
theorem seedingOnlyPrimes : Obligations.SeedingOnlyPrimes := by
  intro i e s t hi h
  obtain ⟨u, hu, ⟨hcause, c, rfl⟩ | ⟨x, rfl⟩ | ⟨key, rfl⟩⟩ := seeding_cases hi h
  · simp [hcause, hu.engine_eq, hu.res_eq]
  · simp [hu.res_eq]
  · simp [hu.res_eq]

/-! ## The seeded buffer is not zero (R133) -/

/-- If `buf[1]` of a scalar seed is 0, then `buf[2]` is `C * 0 + 2`. -/
theorem scalarWords_two_of_one_eq_zero {w : Nat} {k : Consts w} {x : Word64} (hn : 2 < k.n)
    (h : (scalarWords k x).getD 1 0 = 0) : (scalarWords k x).getD 2 0 = BitVec.ofNat w 2 := by
  rw [scalarWords_succ k x 1 hn, h]
  simp [seedWord]

theorem two_lt_n (e : EngineId) : 2 < e.consts.n := by cases e <;> decide

theorem ofNat_two_ne_zero (e : EngineId) : BitVec.ofNat e.width 2 ≠ 0 := by cases e <;> decide

/-- ArraySeed's `buf[0]` has a 1 in bit W-1, which lies in [W-1:31] (R124). -/
theorem arrayWords_zero_ushiftRight_ne_zero (e : EngineId) (key : List (BitVec e.width)) :
    (arrayWords e.consts key).getD 0 0 >>> 31 ≠ 0 := by
  rw [arrayWords_zero]
  cases e <;> decide

/-- Settles O26: ArraySeed sets bit W-1 of `buf[0]`; after ScalarSeed `buf[1]` or `buf[2]` is not 0. -/
theorem seededBufferIsNotZero : Obligations.SeededBufferIsNotZero := by
  intro i e s t hi hcause h
  obtain ⟨x, hbuf⟩ | ⟨key, hbuf⟩ := buf_of_seeding hi hcause h <;> rw [hbuf]
  · right
    by_cases h1 : (scalarWords e.consts x).getD 1 0 = 0
    · refine ⟨2, one_le_two, two_lt_n e, ?_⟩
      rw [scalarWords_two_of_one_eq_zero (two_lt_n e) h1]
      exact ofNat_two_ne_zero e
    · exact ⟨1, le_rfl, one_lt_two.trans (two_lt_n e), h1⟩
  · exact .inl (arrayWords_zero_ushiftRight_ne_zero e key)

/-! ## Seeding fixes the stream (R132) -/

/-- Two engines that give the same words from here on: they agree in all that an extraction reads. It reads `cursor` only
where it does not regenerate. -/
structure Engine.SameStream {w : Nat} (g h : Engine w) : Prop where
  buf_eq : h.buf = g.buf
  remaining_eq : h.remaining = g.remaining
  seeded_eq : h.seeded = g.seeded
  cursor_eq : g.remaining ≠ 1 → h.cursor = g.cursor

section Stream

variable {w : Nat} {k : Consts w} {g h : Engine w}

/-- Seeded alike, two engines give the same words: the first extraction regenerates, so `cursor` is not read. -/
theorem Engine.sameStream_scalarSeed (x : Word64) : (g.scalarSeed k x).SameStream (h.scalarSeed k x) :=
  ⟨rfl, rfl, rfl, absurd rfl⟩

theorem Engine.sameStream_arraySeed (key : List (BitVec w)) : (g.arraySeed k key).SameStream (h.arraySeed k key) :=
  ⟨rfl, rfl, rfl, absurd rfl⟩

/-- After the first two lines of R180 the cursors agree too: either both engines have regenerated, or neither has. -/
theorem Engine.SameStream.refill (hgh : g.SameStream h) :
    (g.refill k).SameStream (h.refill k) ∧ (h.refill k).cursor = (g.refill k).cursor := by
  obtain ⟨hbuf, hrem, hseed, hcur⟩ := hgh
  simp only [Engine.refill, hrem]
  split
  · exact ⟨⟨Engine.regenerate_buf_congr hseed fun _ => hbuf, rfl, by simp, fun _ => rfl⟩, rfl⟩
  · have hcursor : h.cursor = g.cursor := hcur (by omega)
    exact ⟨⟨hbuf, rfl, hseed, fun _ => hcursor⟩, hcursor⟩

end Stream

section States

variable {e : EngineId} {s t : State}

theorem nextWord_eq_of_sameStream (h : (s.engine e).SameStream (t.engine e)) : t.nextWord e = s.nextWord e := by
  obtain ⟨hstream, hcursor⟩ := h.refill (k := e.consts)
  simp only [State.nextWord, hstream.buf_eq, hcursor]

theorem sameStream_afterWord (h : (s.engine e).SameStream (t.engine e)) :
    ((s.afterWord e).engine e).SameStream ((t.afterWord e).engine e) := by
  obtain ⟨⟨hbuf, hrem, hseed, -⟩, hcursor⟩ := h.refill (k := e.consts)
  rw [State.afterWord_engine, State.afterWord_engine]
  exact ⟨hbuf, hrem, hseed, fun _ => congrArg (· + 1) hcursor⟩

theorem sameStream_iterate_afterWord (h : (s.engine e).SameStream (t.engine e)) (j : Nat) :
    (((fun u : State => u.afterWord e)^[j] s).engine e).SameStream
      (((fun u : State => u.afterWord e)^[j] t).engine e) := by
  induction j generalizing s t with
  | zero => exact h
  | succ j ih => exact ih (sameStream_afterWord h)

end States

/-- SEED_ARR with equal keys: the key alone decides what it leaves of the stream. -/
theorem sameStream_of_seedArr {e : EngineId} {s s' t t' : State} (hs : s.Inv) (hs' : s'.Inv)
    (ht : exec (.seedArr e) s = .next t) (ht' : exec (.seedArr e) s' = .next t') (h0 : (s.engine e).klen ≠ 0)
    (hkey : (s'.engine e).key.take (s'.engine e).klen = (s.engine e).key.take (s.engine e).klen) :
    (t.engine e).SameStream (t'.engine e) := by
  obtain ⟨-, -, -, -, -, -, hlen, hle⟩ := hs.engine_inv e
  obtain ⟨-, -, -, -, -, -, hlen', hle'⟩ := hs'.engine_inv e
  have hne := Engine.take_klen_ne_nil (hle.trans_eq hlen.symm) h0
  have h0' : (s'.engine e).klen ≠ 0 := fun hz => hne (by rw [← hkey, hz, List.take_zero])
  rw [exec_seedArr_of_key (hle.trans_eq hlen.symm) h0] at ht
  rw [exec_seedArr_of_key (hle'.trans_eq hlen'.symm) h0', hkey] at ht'
  obtain rfl := Host.Outcome.next.inj ht
  obtain rfl := Host.Outcome.next.inj ht'
  rw [State.engine_setEngine, State.engine_setEngine]
  exact Engine.sameStream_arraySeed _

/-- Settles O25: both seedings leave engines of one stream, and every extraction keeps them so. -/
theorem seedingIsReproducible : Obligations.SeedingIsReproducible := by
  intro e s s' t t' hs hs' h
  have hstream : (t.engine e).SameStream (t'.engine e) := by
    obtain ⟨opa, ht, ht'⟩ | ⟨ht, ht', h0, hkey⟩ := h
    · obtain rfl := Host.Outcome.next.inj ht
      obtain rfl := Host.Outcome.next.inj ht'
      rw [State.engine_setEngine, State.engine_setEngine]
      exact Engine.sameStream_scalarSeed opa
    · exact sameStream_of_seedArr hs hs' ht ht' h0 hkey
  exact ⟨hstream.buf_eq, hstream.remaining_eq, hstream.seeded_eq,
    fun j => nextWord_eq_of_sameStream (sameStream_iterate_afterWord hstream j)⟩

end Sys2Proof.Machine
end

section
/-! Regeneration (spec/41_regeneration.md): the in-place sweep and the words it reads, when an engine regenerates,
and the default seed. -/

namespace Sys2Proof.Machine

/-! ## Regenerate is the in-place sweep (R160, R163) -/

/-- The machine's sweep of an engine is R160's loop, for every buffer of N words. -/
theorem twistWords_eq_twistLoop_consts (e : EngineId) {b : List (BitVec e.width)} (hb : b.length = e.consts.n) :
    twistWords e.consts b = twistLoop e.consts b :=
  have ⟨hm, hn, hm1⟩ := consts_range e
  twistWords_eq_twistLoop _ b hb hm hm1 hn

/-- The default-seed path of R160 leaves the engine's own buffer, or the one R120's loop fills. -/
theorem Engine.withDefaultSeed_buf {w : Nat} {k : Consts w} {g : Engine w} (hb : g.buf.length = k.n) (hn : 1 ≤ k.n) :
    (g.withDefaultSeed k).buf = if g.seeded then g.buf else scalarLoop k seedDefault g.buf := by
  cases hs : g.seeded with
  | true => simp [hs]
  | false => simp [hs, scalarWords_eq_scalarLoop k seedDefault g.buf hb hn]

/-- Regenerate seeds the engine and fixes the counters whatever they were; `KEY` and `KLEN` stay (R160). -/
theorem Engine.regenerate_eq {w : Nat} (k : Consts w) (g : Engine w) :
    g.regenerate k =
      { g with buf := twistWords k (g.withDefaultSeed k).buf, seeded := true, remaining := k.n, cursor := 0 } := by
  simp [Engine.regenerate]

/-- Settles O27: the in-place sweep runs over the buffer of the default-seed path. -/
theorem regenerateRunsInPlaceSweep : Obligations.RegenerateRunsInPlaceSweep := by
  intro e g hb
  have hn : 1 ≤ e.consts.n := one_le_two.trans (consts_range e).2.1
  rw [Engine.regenerate_eq, twistWords_eq_twistLoop_consts e (Engine.withDefaultSeed_buf_length hb hn),
    Engine.withDefaultSeed_buf hb hn]
  rfl

/-- Settles O28: the three ranges are the cases of the words of one sweep. -/
theorem sweepReadsOldThenNewWords : Obligations.SweepReadsOldThenNewWords := by
  intro e b hb
  obtain ⟨hm, hn, hm1⟩ := consts_range e
  have hword := twistWords_getD e.consts b hb hm hn
  rw [twistWords_eq_twistLoop_consts e hb] at hword
  refine ⟨fun i hi => ?_, fun i hi hlast => ?_, ?_⟩
  · rw [hword i (by omega), if_pos (by omega), if_pos hi]
  · have htap : i - (e.consts.n - e.consts.m) = i + e.consts.m - e.consts.n := by omega
    rw [hword i (by omega), if_pos (by omega), if_neg (by omega), htap]
  · have htap : e.consts.n - 1 - (e.consts.n - e.consts.m) = e.consts.m - 1 := by omega
    rw [hword _ (by omega), if_neg (by omega), if_neg (by omega), htap]

/-! ## What a sweep reads (R167) -/

section Sweep

variable {w : Nat} {k : Consts w} {b c : List (BitVec w)}

/-- c holds the words of one sweep over b: each is made of the old words and of the new words before it (R160, R163). -/
def SweepOf (k : Consts w) (b c : List (BitVec w)) : Prop :=
  ∀ i, i < k.n → c.getD i 0 = twistWord k (b.getD i 0)
    (if i + 1 < k.n then b.getD (i + 1) 0 else c.getD 0 0)
    (if i < k.n - k.m then b.getD (i + k.m) 0 else c.getD (i - (k.n - k.m)) 0)

theorem sweepOf_twistWords (hb : b.length = k.n) (hm : k.m < k.n) (hn : 2 ≤ k.n) : SweepOf k b (twistWords k b) :=
  twistWords_getD k b hb hm hn

/-- The words of a sweep over b are determined, in order, by b. -/
theorem SweepOf.getD_eq {c' : List (BitVec w)} (h : SweepOf k b c) (h' : SweepOf k b c') (hm : k.m < k.n)
    (hn : 2 ≤ k.n) (i : Nat) (hi : i < k.n) : c.getD i 0 = c'.getD i 0 := by
  induction i using Nat.strong_induction_on with
  | _ i ih =>
    rw [h i hi, h' i hi]
    congr 1
    · split
      · rfl
      · exact ih 0 (by omega) (by omega)
    · split
      · rfl
      · exact ih _ (by omega) (by omega)

/-- A buffer that holds the words of one sweep over b is the one the machine's sweep leaves. -/
theorem twistWords_eq_of_sweepOf (h : SweepOf k b c) (hb : b.length = k.n) (hc : c.length = k.n) (hm : k.m < k.n)
    (hn : 2 ≤ k.n) : twistWords k b = c := by
  have hlen := twistWords_length k b hb hm
  refine eq_of_loopRead (hlen.trans hc.symm) fun i hi => ?_
  exact (sweepOf_twistWords hb hm hn).getD_eq h hm hn i (hlen ▸ hi)

@[simp] theorem twistWord_zero (k : Consts w) : twistWord k 0 0 0 = 0 := by simp [twistWord]

/-- Every word a sweep over zeros reads is 0, and so is every word it makes. -/
theorem sweepOf_replicate_zero (k : Consts w) : SweepOf k (List.replicate k.n 0) (List.replicate k.n 0) := by
  have hread : ∀ i, (List.replicate k.n (0 : BitVec w)).getD i 0 = 0 := fun i =>
    List.getElem?_getD_replicate_default_eq 0 k.n i
  intro i _
  simp only [hread, ite_self, twistWord_zero]

/-- A step reads the word it replaces under UM only (R160, R161). -/
theorem twistWord_congr {x y : BitVec w} (h : x &&& k.um = y &&& k.um) (next tap : BitVec w) :
    twistWord k x next tap = twistWord k y next tap := by simp only [twistWord, h]

/-- Only step 0 reads the old `buf[0]`, as the word it replaces: the taps start at M, and the last step reads the new
word. -/
theorem SweepOf.set_zero (h : SweepOf k b c) {x : BitVec w} (hb : b.length = k.n) (hm1 : 1 ≤ k.m)
    (hx : x &&& k.um = b.getD 0 0 &&& k.um) : SweepOf k (b.set 0 x) c := by
  intro i hi
  have hread : ∀ j, (b.set 0 x).getD j 0 = if j = 0 then x else b.getD j 0 := fun _ => loopRead_set (by omega)
  rw [h i hi, hread i, hread (i + 1), hread (i + k.m), if_neg (by omega : i + 1 ≠ 0),
    if_neg (by omega : i + k.m ≠ 0)]
  by_cases h0 : i = 0
  · rw [h0, if_pos rfl]
    exact twistWord_congr hx.symm _ _
  · rw [if_neg h0]

end Sweep

/-- UM has ones in bits [W-1:31] (R161). -/
theorem um_eq_allOnes_shiftLeft : ∀ e : EngineId, e.consts.um = BitVec.allOnes e.width <<< 31
  | .mt32 => by decide
  | .mt64 => by decide

/-- What UM keeps of a word are its bits [W-1:31]. -/
theorem and_um_eq (e : EngineId) (x : BitVec e.width) : x &&& e.consts.um = x >>> 31 <<< 31 := by
  rw [um_eq_allOnes_shiftLeft, BitVec.shiftLeft_ushiftRight]

/-- Settles O30: the zero buffer holds the words of a sweep over itself, and the words of a sweep over b are those of
a sweep over b with other low bits in `buf[0]`. -/
theorem sweepZeroFixedPoint : Obligations.SweepZeroFixedPoint := by
  intro e
  obtain ⟨hm, hn, hm1⟩ := consts_range e
  refine ⟨?_, fun b x hb hx => ?_⟩
  · exact twistWords_eq_of_sweepOf (sweepOf_replicate_zero _) List.length_replicate List.length_replicate hm hn
  · have hum : x &&& e.consts.um = b.getD 0 0 &&& e.consts.um := by rw [and_um_eq, and_um_eq, hx]
    exact twistWords_eq_of_sweepOf ((sweepOf_twistWords hb hm hn).set_zero hb hm1 hum) (List.length_set.trans hb)
      (twistWords_length _ b hb hm) hm hn

/-! ## When an engine regenerates (R164) -/

/-- While `remaining` is not spent, extractions only count: the decrement leaves at least 1 each time. -/
theorem Engine.iterate_afterExtract_of_lt_remaining {w : Nat} {k : Consts w} {g : Engine w} {j : Nat}
    (hj : j < g.remaining) :
    (fun g => { g.refill k with cursor := (g.refill k).cursor + 1 })^[j] g =
      { g with remaining := g.remaining - j, cursor := g.cursor + j } := by
  induction j with
  | zero => rfl
  | succ j ih =>
    have htwo : 2 ≤ g.remaining - j := by omega
    rw [Function.iterate_succ_apply', ih (by omega), Engine.refill_of_two_le htwo]
    rfl

/-- Settles O31: the engine after the extractions is that many extractions on the engine. -/
theorem noRegenerationBeforeRemainingIsSpent : Obligations.NoRegenerationBeforeRemainingIsSpent := by
  intro e s j _ hj
  rw [State.iterate_afterWord, State.engine_setEngine, Engine.iterate_afterExtract_of_lt_remaining hj]

/-! ## The default seed (R166) -/

/-- The first two lines of R180 make of an engine that is not seeded what they make of it after ScalarSeed(5489): both
regenerate, and Regenerate seeds the one with the seed the other has been given (R160). -/
theorem Engine.refill_scalarSeed_default {w : Nat} {k : Consts w} {g : Engine w} (hs : g.seeded = false)
    (hr : g.remaining = 1) : (g.scalarSeed k seedDefault).refill k = g.refill k := by
  rw [Engine.refill_of_one hr, Engine.refill_of_one (Engine.scalarSeed_remaining k g _)]
  simp [Engine.regenerate_eq, hs, Engine.scalarSeed]

/-- The state after SEED 5489 on engine e (R126). -/
def State.seedDefaultOn (s : State) (e : EngineId) : State :=
  s.setEngine e ((s.engine e).scalarSeed e.consts seedDefault)

/-- Engine e is not seeded, and its next extraction regenerates. -/
structure State.Unseeded (s : State) (e : EngineId) : Prop where
  seeded_eq : (s.engine e).seeded = false
  remaining_eq : (s.engine e).remaining = 1

theorem State.Inv.unseeded {s : State} {e : EngineId} (h : s.Inv) (hs : (s.engine e).seeded = false) :
    s.Unseeded e := by
  obtain ⟨-, -, -, -, -, hrem, -⟩ := h.engine_inv e
  exact ⟨hs, hrem hs⟩

theorem State.Unseeded.afterEntropy {s : State} {e : EngineId} (h : s.Unseeded e) : s.afterEntropy.Unseeded e :=
  ⟨by simpa using h.seeded_eq, by simpa using h.remaining_eq⟩

section DefaultSeed

variable {s : State} {e : EngineId}

theorem State.afterEntropy_seedDefaultOn : (s.seedDefaultOn e).afterEntropy = s.afterEntropy.seedDefaultOn e := by
  simp [State.seedDefaultOn, State.afterEntropy_setEngine]

theorem State.Unseeded.extractRaw_seedDefaultOn (h : s.Unseeded e) :
    ((s.seedDefaultOn e).engine e).extractRaw e.consts = (s.engine e).extractRaw e.consts := by
  simp only [State.seedDefaultOn, State.engine_setEngine, Engine.extractRaw,
    Engine.refill_scalarSeed_default h.seeded_eq h.remaining_eq]

/-- The word and the state after it are the same: the extraction replaces the whole engine. -/
theorem State.Unseeded.extract_seedDefaultOn (h : s.Unseeded e) : (s.seedDefaultOn e).extract e = s.extract e := by
  simp only [State.extract, h.extractRaw_seedDefaultOn]
  simp only [State.seedDefaultOn, State.setEngine_setEngine]

theorem State.Unseeded.convertWord_seedDefaultOn (h : s.Unseeded e) (f : BitVec e.width → Word64) :
    (s.seedDefaultOn e).convertWord e f = s.convertWord e f := by
  simp only [State.convertWord, h.extract_seedDefaultOn]

/-- After the first of at least one discarded words nothing tells the two engines apart. -/
theorem State.Unseeded.discardWords_seedDefaultOn (h : s.Unseeded e) {c : Nat} (hc : c ≠ 0) :
    (s.seedDefaultOn e).discardWords e c = s.discardWords e c := by
  obtain ⟨c, rfl⟩ := Nat.exists_eq_succ_of_ne_zero hc
  simp only [State.discardWords, Engine.discard, h.extractRaw_seedDefaultOn]
  simp only [State.seedDefaultOn, State.setEngine_setEngine]

theorem State.Unseeded.execBounded_seedDefaultOn (h : s.Unseeded e) {opa : Word64}
    (hcause : s.cause (.bounded e opa) = none) : execBounded e opa (s.seedDefaultOn e) = execBounded e opa s := by
  have hn : ¬ boundOperand e.width opa ≤ 0 := by simpa [State.cause] using hcause
  simp only [execBounded, if_neg hn, h.convertWord_seedDefaultOn]

theorem State.Unseeded.execRes53_seedDefaultOn (h : s.Unseeded .mt32) :
    execRes53 .mt32 (s.seedDefaultOn .mt32) = execRes53 .mt32 s := by
  simp only [execRes53, h.extract_seedDefaultOn]

theorem State.Unseeded.execWarmupEnt_seedDefaultOn (h : s.Unseeded e) (hcause : s.cause (.warmupEnt e) = none) :
    execWarmupEnt e (s.seedDefaultOn e) = execWarmupEnt e s := by
  have hanswer : (s.seedDefaultOn e).entropyAnswer = s.entropyAnswer := State.entropyAnswer_setEngine ..
  simp only [execWarmupEnt, hanswer, State.afterEntropy_seedDefaultOn]
  cases ha : s.entropyAnswer with
  | fail => simp [State.cause, ha] at hcause
  | data r => exact h.afterEntropy.discardWords_seedDefaultOn (warmupCount_spec r).1.ne_zero

end DefaultSeed

/-- A command that extracts and takes no fault answers the same on an engine that is not seeded and after SEED 5489. -/
theorem State.Unseeded.exec_seedDefaultOn {s : State} {i : Instr} (h : s.Unseeded i.engine) (hext : i.extracts = true)
    (hwf : i.wellFormed = true) (hcause : s.cause i = none) : exec i (s.seedDefaultOn i.engine) = exec i s := by
  have hparams : (s.seedDefaultOn i.engine).params = s.params := State.setEngine_params ..
  cases i with
  | seed | seedEnt | keyClr | keyPush | seedArr => cases hext
  | next e => exact h.convertWord_seedDefaultOn _
  | nextS e => exact h.convertWord_seedDefaultOn _
  | nextPos e => exact h.convertWord_seedDefaultOn _
  | nextT32 e =>
    simp only [exec, execNextT32, hparams]
    exact h.convertWord_seedDefaultOn _
  | bounded e opa => exact h.execBounded_seedDefaultOn hcause
  | real1 e =>
    simp only [exec, execReal1, hparams]
    exact h.convertWord_seedDefaultOn _
  | real2 e => exact h.convertWord_seedDefaultOn _
  | real3 e => exact h.convertWord_seedDefaultOn _
  | res53 e =>
    cases e with
    | mt32 => exact h.execRes53_seedDefaultOn
    | mt64 => cases hwf
  | warmup e opa =>
    exact h.discardWords_seedDefaultOn fun h0 => of_decide_eq_true hext (BitVec.eq_of_toNat_eq h0)
  | warmupEnt e => exact h.execWarmupEnt_seedDefaultOn hcause

/-- Settles O32: from a state of the invariant the command answers a next state, and after SEED 5489 the same one. -/
theorem unseededExtractsAsSeed5489 : Obligations.UnseededExtractsAsSeed5489 := by
  intro i s u hext hwf hs hcause hseed hu
  obtain rfl := Host.Outcome.next.inj hu
  obtain ⟨t, ht⟩ := exec_of_inv hs i
  exact ⟨t, ht, ((hs.unseeded hseed).exec_seedDefaultOn hext hwf hcause).trans ht⟩

end Sys2Proof.Machine
end

section
/-! The extraction commands (spec/42_extraction.md): the tempered word NEXT returns and the engine it leaves, and the
words NEXT_S and NEXT_T32 make of it. -/

namespace Sys2Proof.Machine

/-! ## Tempering (R181, R182) -/

/-- Settles O34: the model's pipelines are the rules' own, and each worked value is computed through its pipeline. -/
theorem temperingPipelines : Obligations.TemperingPipelines := by
  refine ⟨fun _ => rfl, fun _ => rfl, ?_, ?_, ?_, ?_, ?_, ?_, ?_, ?_⟩ <;> decide

/-! ## The word an extraction takes and the engine it leaves (R180) -/

/-- Regenerate writes `remaining` without reading it (R160). -/
theorem Engine.regenerate_set_remaining {w : Nat} (k : Consts w) (g : Engine w) (r : Nat) :
    { g with remaining := r }.regenerate k = g.regenerate k := by
  have hbuf : twistWords k ({ g with remaining := r }.withDefaultSeed k).buf =
      twistWords k (g.withDefaultSeed k).buf := Engine.regenerate_buf_congr rfl fun _ => rfl
  simp only [Engine.regenerate_eq, hbuf]

section Words

variable {s : State} {e : EngineId}

/-- While the decrement leaves `remaining` above 0, the word is the one under `cursor`. -/
theorem State.nextWord_of_two_le (h : 2 ≤ (s.engine e).remaining) :
    s.nextWord e = temper e ((s.engine e).buf.getD (s.engine e).cursor 0) := by
  rw [State.nextWord, Engine.refill_of_two_le h]
  rfl

theorem State.afterWord_of_two_le (h : 2 ≤ (s.engine e).remaining) :
    s.afterWord e = s.setEngine e
      { s.engine e with remaining := (s.engine e).remaining - 1, cursor := (s.engine e).cursor + 1 } := by
  simp only [State.afterWord, Engine.refill_of_two_le h]

/-- When the decrement leaves 0, the extraction begins with Regenerate of the engine as it stands. -/
theorem State.refill_engine_of_one (h : (s.engine e).remaining = 1) :
    (s.engine e).refill e.consts = (s.engine e).regenerate e.consts := by
  rw [Engine.refill_of_one h, Engine.regenerate_set_remaining]

theorem State.nextWord_of_one (h : (s.engine e).remaining = 1) :
    s.nextWord e = temper e (((s.engine e).regenerate e.consts).buf.getD 0 0) := by
  rw [State.nextWord, State.refill_engine_of_one h]
  rfl

theorem State.afterWord_of_one (h : (s.engine e).remaining = 1) :
    s.afterWord e = s.setEngine e { (s.engine e).regenerate e.consts with cursor := 1 } := by
  simp only [State.afterWord, State.refill_engine_of_one h, Engine.regenerate_cursor]

end Words

/-! ## What RES takes from a word (R12, R184, R185) -/

theorem width_le_64 (e : EngineId) : e.width ≤ 64 := by cases e <;> decide

/-- `sext_64` keeps the two's-complement value (R12). -/
theorem toInt_sext64 {w : Nat} (hw : w ≤ 64) (y : BitVec w) : (sext64 y).toInt = y.toInt :=
  BitVec.toInt_signExtend_of_le hw

/-- `zext_64` keeps the unsigned value (R12). -/
theorem toNat_zext64 {w : Nat} (hw : w ≤ 64) (y : BitVec w) : (zext64 y).toNat = y.toNat :=
  BitVec.toNat_setWidth_of_le hw

theorem truncated32_mt32 (sel : TruncSel) (y : BitVec 32) : truncated32 sel .mt32 y = y := rfl

theorem toNat_truncated32_low (y : BitVec 64) : (truncated32 .low .mt64 y).toNat = y.toNat % 2 ^ 32 :=
  BitVec.extractLsb'_toNat 0 32 y

theorem toNat_truncated32_high (y : BitVec 64) : (truncated32 .high .mt64 y).toNat = y.toNat / 2 ^ 32 := by
  have hy : y.toNat < 2 ^ 64 := y.isLt
  have hbits : (truncated32 .high .mt64 y).toNat = y.toNat >>> 32 % 2 ^ 32 := BitVec.extractLsb'_toNat 32 32 y
  rw [hbits, Nat.shiftRight_eq_div_pow]
  omega

/-! ## The commands (R183 to R185) -/

section Commands

variable {s : State}

theorem exec_next_of_inv (h : s.Inv) (e : EngineId) :
    exec (.next e) s = .next ((s.afterWord e).writeRes (zext64 (s.nextWord e))) :=
  State.convertWord_of_inv h e zext64

theorem exec_nextS_of_inv (h : s.Inv) (e : EngineId) :
    exec (.nextS e) s = .next ((s.afterWord e).writeRes (sext64 (s.nextWord e))) :=
  State.convertWord_of_inv h e sext64

theorem exec_nextT32_of_inv (h : s.Inv) (e : EngineId) :
    exec (.nextT32 e) s =
      .next ((s.afterWord e).writeRes (zext64 (truncated32 s.params.truncSel e (s.nextWord e)))) :=
  State.convertWord_of_inv h e _

end Commands

/-- Settles O33: one case for each value the decrement of `remaining` can leave. -/
theorem nextReturnsTemperedWord : Obligations.NextReturnsTemperedWord := by
  refine fun e s => ⟨fun opa => decode_eq_ok_iff.mpr ⟨rfl, by cases e <;> rfl, absurd rfl⟩,
    fun hs htwo => ?_, fun hs hone => ?_⟩
  · rw [exec_next_of_inv hs, State.nextWord_of_two_le htwo, State.afterWord_of_two_le htwo]
    rfl
  · rw [exec_next_of_inv hs, State.nextWord_of_one hone, State.afterWord_of_one hone]
    rfl

/-- Settles O35: the value RES takes is the word's `sext_64`. -/
theorem nextSignedReturnsSignedWord : Obligations.NextSignedReturnsSignedWord :=
  fun e _ => ⟨fun _ => decode_eq_ok_iff.mpr ⟨rfl, by cases e <;> rfl, absurd rfl⟩,
    fun hs => ⟨_, exec_nextS_of_inv hs e, toInt_sext64 (width_le_64 e) _⟩⟩

/-- Settles O36: the value RES takes is the 32 bits kept, for MT32 and for each half of an MT64 word. -/
theorem nextTruncatedReturnsHalf : Obligations.NextTruncatedReturnsHalf := by
  refine fun e s => ⟨fun opa => decode_eq_ok_iff.mpr ⟨rfl, by cases e <;> rfl, absurd rfl⟩,
    fun hs => ⟨_, exec_nextT32_of_inv hs e, ?_⟩⟩
  rw [toNat_zext64 (by decide)]
  cases e with
  | mt32 => rw [truncated32_mt32]
  | mt64 =>
    cases s.params.truncSel with
    | low => exact toNat_truncated32_low _
    | high => exact toNat_truncated32_high _

end Sys2Proof.Machine
end

section
/-! The derived outputs (spec/43_derived.md): the integer conversions, the reals and their ranges, and warmup. -/

namespace Sys2Proof.Machine

/-! ## The integer conversions (R201, R202) -/

/-- `(1 << (W-1)) - 1` as a number (R201). -/
theorem toNat_signMask {w : Nat} (hw : 0 < w) : ((1#w <<< (w - 1)) - 1#w).toNat = 2 ^ (w - 1) - 1 := by
  have hlt : 2 ^ (w - 1) < 2 ^ w := Nat.pow_lt_pow_right Nat.one_lt_two (by omega)
  have hone : (1#w).toNat = 1 := Nat.mod_eq_of_lt (Nat.one_lt_two_pow hw.ne')
  have hpow : (1#w <<< (w - 1)).toNat = 2 ^ (w - 1) := by
    rw [BitVec.toNat_shiftLeft, hone, Nat.one_shiftLeft, Nat.mod_eq_of_lt hlt]
  have hle : 1#w ≤ 1#w <<< (w - 1) := by
    rw [BitVec.le_def, hone, hpow]
    exact Nat.one_le_two_pow
  rw [BitVec.toNat_sub_of_le hle, hone, hpow]

/-- Masking off the sign bit is the remainder modulo 2^(W-1). -/
theorem toNat_maskSign {w : Nat} (hw : 0 < w) (y : BitVec w) : (maskSign y).toNat = y.toNat % 2 ^ (w - 1) := by
  rw [maskSign, BitVec.toNat_and, toNat_signMask hw, Nat.and_two_pow_sub_one_eq_mod]

/-- The remainder is no larger than the word, so the word width holds it. -/
theorem toNat_wordMod {w : Nat} (y : BitVec w) (n : Int) : (wordMod y n).toNat = y.toNat % n.toNat :=
  (BitVec.toNat_ofNat _ _).trans (Nat.mod_eq_of_lt ((Nat.mod_le _ _).trans_lt y.isLt))

theorem wordMod_eq_emod {w : Nat} (y : BitVec w) {n : Int} (hn : 0 < n) :
    ((wordMod y n).toNat : Int) = (y.toNat : Int) % n := by
  rw [toNat_wordMod, Int.natCast_mod, Int.toNat_of_nonneg hn.le]

theorem wordMod_lt {w : Nat} (y : BitVec w) {n : Int} (hn : 0 < n) : ((wordMod y n).toNat : Int) < n := by
  rw [wordMod_eq_emod y hn]
  exact Int.emod_lt_of_pos _ hn

theorem encode_bounded_cw (e : EngineId) (opa : Word64) : (encode (.bounded e opa)).cw = e.word 0x014 0x114 :=
  show (encode (.bounded e 0)).cw = e.word 0x014 0x114 by cases e <;> rfl

section Commands

variable {s : State} {e : EngineId}

theorem exec_nextPos_of_inv (h : s.Inv) :
    exec (.nextPos e) s = .next ((s.afterWord e).writeRes (zext64 (maskSign (s.nextWord e)))) :=
  State.convertWord_of_inv h e _

theorem exec_bounded_of_pos {opa : Word64} (h : s.Inv) (hn : 0 < boundOperand e.width opa) :
    exec (.bounded e opa) s =
      .next ((s.afterWord e).writeRes (zext64 (wordMod (s.nextWord e) (boundOperand e.width opa)))) :=
  (if_neg hn.not_ge).trans (State.convertWord_of_inv h e _)

theorem exec_bounded_of_nonpos {opa : Word64} (hn : boundOperand e.width opa ≤ 0) :
    exec (.bounded e opa) s = .next (s.raiseFault .bound) := if_pos hn

end Commands

/-- Settles O37: the mask is 2^(W-1) - 1. -/
theorem nextPositiveMasksSignBit : Obligations.NextPositiveMasksSignBit := by
  refine fun e s => ⟨fun opa => decode_eq_ok_iff.mpr ⟨rfl, by cases e <;> rfl, absurd rfl⟩,
    fun hs => ⟨_, exec_nextPos_of_inv hs, ?_⟩⟩
  rw [toNat_zext64 (width_le_64 e), toNat_maskSign (by cases e <;> decide)]

/-- Settles O38: one case for each side of the check of the bound, which comes before the extraction. -/
theorem boundedReturnsRemainderOrFaults : Obligations.BoundedReturnsRemainderOrFaults := by
  refine fun e opa s => ⟨decode_eq_ok_iff.mpr ⟨rfl, encode_bounded_cw e opa, fun _ => rfl⟩,
    fun hs hn => ⟨_, exec_bounded_of_pos hs hn, ?_⟩,
    fun hn => ⟨_, exec_bounded_of_nonpos hn, State.faultTaken_raiseFault s .bound⟩⟩
  rw [toNat_zext64 (width_le_64 e)]
  exact wordMod_eq_emod _ hn

/-! ## Exact values (R14)

Every intermediate value of REAL2, REAL3 and RES53 is some m / 2^k with m below 2^53, so no step of them rounds. -/

/-- f is a finite encoding of q. -/
abbrev Encodes (f : Word64) (q : ℚ) : Prop := FiniteReal f ∧ realValue f = q

theorem lt_two_pow_1023 {q : ℚ} (h : q < 2 ^ 53) : q < 2 ^ 1023 :=
  h.trans (pow_lt_pow_right₀ one_lt_two (by norm_num))

theorem div_two_pow_eq_zpow (m k : ℕ) : (m : ℚ) / 2 ^ k = m * 2 ^ (-(k : ℤ)) := by
  rw [zpow_neg, zpow_natCast, div_eq_mul_inv]

theorem div_two_pow_lt {m : ℕ} (hm : m < 2 ^ 53) (k : ℕ) : (m : ℚ) / 2 ^ k < 2 ^ 1023 :=
  lt_two_pow_1023 ((div_le_self (Nat.cast_nonneg m) (one_le_pow₀ one_le_two)).trans_lt (by exact_mod_cast hm))

section Exact

variable {x y : Word64} {a b : ℚ} {m k : ℕ}

theorem Encodes.fadd (hx : Encodes x a) (hy : Encodes y b) (hm : m < 2 ^ 53) (hk : k ≤ 1074)
    (hq : a + b = m / 2 ^ k) : Encodes (fadd x y) (a + b) := by
  obtain ⟨-, rfl⟩ := hx
  obtain ⟨-, rfl⟩ := hy
  exact fadd_exact m (-(k : ℤ)) hm (by omega) (hq.trans (div_two_pow_eq_zpow m k)) (hq ▸ div_two_pow_lt hm k)

theorem Encodes.fmul (hx : Encodes x a) (hy : Encodes y b) (hm : m < 2 ^ 53) (hk : k ≤ 1074)
    (hq : a * b = m / 2 ^ k) : Encodes (fmul x y) (a * b) := by
  obtain ⟨-, rfl⟩ := hx
  obtain ⟨-, rfl⟩ := hy
  exact fmul_exact m (-(k : ℤ)) hm (by omega) (hq.trans (div_two_pow_eq_zpow m k)) (hq ▸ div_two_pow_lt hm k)

theorem Encodes.fdiv (hx : Encodes x a) (hy : Encodes y b) (hb : b ≠ 0) (hm : m < 2 ^ 53) (hk : k ≤ 1074)
    (hq : a / b = m / 2 ^ k) : Encodes (fdiv x y) (a / b) := by
  obtain ⟨-, rfl⟩ := hx
  obtain ⟨-, rfl⟩ := hy
  exact fdiv_exact m (-(k : ℤ)) hm (by omega) hb (hq.trans (div_two_pow_eq_zpow m k)) (hq ▸ div_two_pow_lt hm k)

theorem encodes_fpPow2 (hk : k < 1023) : Encodes (fpPow2 k) (2 ^ k) := by
  have hval : ((2 ^ k : ℕ) : ℚ) / (1 : ℕ) = 2 ^ k := by push_cast; exact div_one _
  have hlt : (2 : ℚ) ^ k < 2 ^ 1023 := pow_lt_pow_right₀ one_lt_two hk
  have hone : (2 : ℚ) ^ k = (1 : ℕ) * 2 ^ (k : ℤ) := by rw [zpow_natCast, Nat.cast_one, one_mul]
  rw [← hval] at hlt
  obtain ⟨hfin, heq⟩ := roundBinary64_exact (2 ^ k) 1 one_pos 1 k (by norm_num) (by omega) (hval.trans hone) hlt
  exact ⟨hfin, heq.trans hval⟩

theorem encodes_fpHalf : Encodes fpHalf (1 / 2) := by
  obtain ⟨hfin, heq⟩ := roundBinary64_exact 1 2 two_pos 1 (-1) (by norm_num) (by norm_num) (by norm_num)
    (lt_two_pow_1023 (by norm_num))
  exact ⟨hfin, heq.trans (by norm_num)⟩

/-- Dividing a value with at most 53 significant bits by a power of two is exact. -/
theorem Encodes.fdiv_fpPow2 {j : ℕ} (hx : Encodes x a) (ha : a = m / 2 ^ j) (hm : m < 2 ^ 53) (hk : k < 1023)
    (hj : j + k ≤ 1074) : Encodes (Machine.fdiv x (fpPow2 k)) (a / 2 ^ k) :=
  hx.fdiv (encodes_fpPow2 hk) (by positivity) hm hj (by rw [ha, div_div, ← pow_add])

theorem encodes_fp (hm : m < 2 ^ 53) : Encodes (fp m) m := fp_exact m hm

theorem encodes_fp_one : Encodes (fp 1) 1 := by exact_mod_cast encodes_fp (m := 1) (by norm_num)

end Exact

/-! ## The leading bits of a word (R203 to R206) -/

/-- The n leading bits of a word, as a number. -/
def leadingBits {w : Nat} (n : Nat) (y : BitVec w) : Nat := y.toNat / 2 ^ (w - n)

theorem leadingBits_lt {w n : Nat} (h : n ≤ w) (y : BitVec w) : leadingBits n y < 2 ^ n := by
  refine Nat.div_lt_of_lt_mul ?_
  rw [← pow_add, Nat.sub_add_cancel h]
  exact y.isLt

theorem leadingBits_width {w : Nat} (y : BitVec w) : leadingBits w y = y.toNat := by
  rw [leadingBits, Nat.sub_self, pow_zero, Nat.div_one]

/-- Shifting out k bits leaves the others. -/
theorem leadingBits_eq_ushiftRight {w n k : Nat} (h : n + k = w) (y : BitVec w) :
    leadingBits n y = (y >>> k).toNat := by
  rw [leadingBits, Nat.sub_eq_of_eq_add' h.symm, BitVec.toNat_ushiftRight, Nat.shiftRight_eq_div_pow]

/-- How many bits of a word REAL1 and REAL2 take (R203, R204). -/
def real2Width : EngineId → Nat
  | .mt32 => 32
  | .mt64 => 53

/-- How many bits of a word REAL3 takes (R205): on MT64 the half takes the place of one. -/
def real3Width : EngineId → Nat
  | .mt32 => 32
  | .mt64 => 52

theorem leadingBits_real2Width_mt32 (y : BitVec 32) : leadingBits (real2Width .mt32) y = y.toNat :=
  leadingBits_width y

theorem leadingBits_real2Width_mt64 (y : BitVec 64) : leadingBits (real2Width .mt64) y = (y >>> 11).toNat :=
  leadingBits_eq_ushiftRight (by decide) y

theorem leadingBits_real3Width_mt32 (y : BitVec 32) : leadingBits (real3Width .mt32) y = y.toNat :=
  leadingBits_width y

theorem leadingBits_real3Width_mt64 (y : BitVec 64) : leadingBits (real3Width .mt64) y = (y >>> 12).toNat :=
  leadingBits_eq_ushiftRight (by decide) y

theorem leadingBits_real2Width_lt (e : EngineId) (y : BitVec e.width) :
    leadingBits (real2Width e) y < 2 ^ real2Width e := leadingBits_lt (by cases e <;> decide) y

theorem leadingBits_real3Width_lt (e : EngineId) (y : BitVec e.width) :
    leadingBits (real3Width e) y < 2 ^ real3Width e := leadingBits_lt (by cases e <;> decide) y

theorem real2Width_le (e : EngineId) : real2Width e ≤ 53 := by cases e <;> decide

theorem real3Width_le (e : EngineId) : real3Width e ≤ 52 := by cases e <;> decide

theorem lt_two_pow_53 {m n : ℕ} (hm : m < 2 ^ n) (hn : n ≤ 53) : m < 2 ^ 53 :=
  hm.trans_le (Nat.pow_le_pow_right two_pos hn)

theorem leadingBits_real2Width_lt_two_pow_53 (e : EngineId) (y : BitVec e.width) :
    leadingBits (real2Width e) y < 2 ^ 53 := lt_two_pow_53 (leadingBits_real2Width_lt e y) (real2Width_le e)

/-- D of R203: 2^32 - 1 or 2^53 - 1. -/
def real1Denominator (e : EngineId) : Nat := 2 ^ real2Width e - 1

theorem real1Denominator_pos (e : EngineId) : 0 < real1Denominator e := by cases e <;> decide

theorem real1Denominator_lt (e : EngineId) : real1Denominator e < 2 ^ 53 :=
  lt_two_pow_53 (Nat.sub_lt (Nat.two_pow_pos _) one_pos) (real2Width_le e)

theorem real1Bits_eq (mode : Real1Mode) (e : EngineId) (y : BitVec e.width) :
    real1Bits mode e y = real1Quotient mode (fp (leadingBits (real2Width e) y)) (fp (real1Denominator e)) := by
  cases e with
  | mt32 => rw [leadingBits_real2Width_mt32]; rfl
  | mt64 => rw [leadingBits_real2Width_mt64]; rfl

theorem real2Bits_eq (e : EngineId) (y : BitVec e.width) :
    real2Bits e y = fdiv (fp (leadingBits (real2Width e) y)) (fpPow2 (real2Width e)) := by
  cases e with
  | mt32 => rw [leadingBits_real2Width_mt32]; rfl
  | mt64 => rw [leadingBits_real2Width_mt64]; rfl

theorem real3Bits_eq (e : EngineId) (y : BitVec e.width) :
    real3Bits e y = fdiv (fadd (fp (leadingBits (real3Width e) y)) fpHalf) (fpPow2 (real3Width e)) := by
  cases e with
  | mt32 => rw [leadingBits_real3Width_mt32]; rfl
  | mt64 => rw [leadingBits_real3Width_mt64]; rfl

theorem res53Bits_eq (a b : BitVec 32) :
    res53Bits a b =
      fdiv (fadd (fmul (fp (leadingBits 27 a)) (fpPow2 26)) (fp (leadingBits 26 b))) (fpPow2 53) := by
  have ha : leadingBits 27 a = (a >>> 5).toNat := leadingBits_eq_ushiftRight (by decide) a
  have hb : leadingBits 26 b = (b >>> 6).toNat := leadingBits_eq_ushiftRight (by decide) b
  rw [ha, hb, res53Bits]

/-! ## REAL2, REAL3 and RES53 (R204 to R206) -/

theorem encodes_real2Bits (e : EngineId) (y : BitVec e.width) :
    Encodes (real2Bits e y) (leadingBits (real2Width e) y / 2 ^ real2Width e) := by
  have hm := leadingBits_real2Width_lt_two_pow_53 e y
  have hn := real2Width_le e
  rw [real2Bits_eq]
  exact (encodes_fp hm).fdiv_fpPow2 (j := 0) (by simp) hm (by omega) (by omega)

theorem encodes_real3Bits (e : EngineId) (y : BitVec e.width) :
    Encodes (real3Bits e y) ((leadingBits (real3Width e) y + 1 / 2) / 2 ^ real3Width e) := by
  have hn := real3Width_le e
  have hm : leadingBits (real3Width e) y < 2 ^ 52 :=
    (leadingBits_real3Width_lt e y).trans_le (Nat.pow_le_pow_right two_pos hn)
  have hodd : 2 * leadingBits (real3Width e) y + 1 < 2 ^ 53 := by omega
  have hsum : (leadingBits (real3Width e) y + 1 / 2 : ℚ) = (2 * leadingBits (real3Width e) y + 1 : ℕ) / 2 ^ 1 := by
    push_cast
    ring
  rw [real3Bits_eq]
  exact ((encodes_fp (by omega)).fadd encodes_fpHalf hodd (by omega) hsum).fdiv_fpPow2 hsum hodd (by omega) (by omega)

theorem encodes_res53Bits (a b : BitVec 32) :
    Encodes (res53Bits a b) ((leadingBits 27 a * 2 ^ 26 + leadingBits 26 b) / 2 ^ 53) := by
  have ha : leadingBits 27 a < 2 ^ 27 := leadingBits_lt (by decide) a
  have hb : leadingBits 26 b < 2 ^ 26 := leadingBits_lt (by decide) b
  have hshift : (leadingBits 27 a * 2 ^ 26 : ℚ) = (leadingBits 27 a * 2 ^ 26 : ℕ) / 2 ^ 0 := by push_cast; ring
  have hsum : (leadingBits 27 a * 2 ^ 26 + leadingBits 26 b : ℚ) =
      (leadingBits 27 a * 2 ^ 26 + leadingBits 26 b : ℕ) / 2 ^ 0 := by push_cast; ring
  have hhigh := (encodes_fp (by omega)).fmul (encodes_fpPow2 (by omega)) (by omega) (by omega) hshift
  have hboth := hhigh.fadd (encodes_fp (by omega)) (by omega) (by omega) hsum
  rw [res53Bits_eq]
  exact hboth.fdiv_fpPow2 hsum (by omega) (by omega) (by omega)

section Commands

variable {s : State}

theorem exec_real1_of_inv (h : s.Inv) (e : EngineId) :
    exec (.real1 e) s = .next ((s.afterWord e).writeRes (real1Bits s.params.real1Mode e (s.nextWord e))) :=
  State.convertWord_of_inv h e _

theorem exec_real2_of_inv (h : s.Inv) (e : EngineId) :
    exec (.real2 e) s = .next ((s.afterWord e).writeRes (real2Bits e (s.nextWord e))) :=
  State.convertWord_of_inv h e _

theorem exec_real3_of_inv (h : s.Inv) (e : EngineId) :
    exec (.real3 e) s = .next ((s.afterWord e).writeRes (real3Bits e (s.nextWord e))) :=
  State.convertWord_of_inv h e _

end Commands

/-- Settles O40: the operands of REAL1 are the leading bits of the word and D, both converted exactly. -/
theorem real1DividesByDenominator : Obligations.Real1DividesByDenominator := by
  refine fun e s => ⟨fun opa => decode_eq_ok_iff.mpr ⟨rfl, by cases e <;> rfl, absurd rfl⟩, fun hs => ?_⟩
  obtain ⟨hxfin, hx⟩ := encodes_fp (leadingBits_real2Width_lt_two_pow_53 e (s.nextWord e))
  obtain ⟨hdfin, hd⟩ := encodes_fp (real1Denominator_lt e)
  refine ⟨_, _, hxfin, hdfin, hx.trans ?_, hd.trans ?_, ?_⟩
  · cases e with
    | mt32 => rw [leadingBits_real2Width_mt32]
    | mt64 => rfl
  · cases e <;> norm_num [real1Denominator, real2Width]
  · rw [exec_real1_of_inv hs, real1Bits_eq]
    cases s.params.real1Mode <;> rfl

/-- Settles O41: the conversion is exact, and its numerator is the word on MT32 and its top 53 bits on MT64. -/
theorem real2IsExactQuotient : Obligations.Real2IsExactQuotient := by
  refine fun e s => ⟨fun opa => decode_eq_ok_iff.mpr ⟨rfl, by cases e <;> rfl, absurd rfl⟩, fun hs => ?_⟩
  obtain ⟨hfin, hval⟩ := encodes_real2Bits e (s.nextWord e)
  refine ⟨_, exec_real2_of_inv hs e, hfin, hval.trans ?_⟩
  cases e with
  | mt32 => rw [leadingBits_real2Width_mt32]; rfl
  | mt64 => rfl

/-- Settles O42: the conversion is exact, and its numerator is the word on MT32 and its top 52 bits on MT64,
plus a half. -/
theorem real3IsExactQuotient : Obligations.Real3IsExactQuotient := by
  refine fun e s => ⟨fun opa => decode_eq_ok_iff.mpr ⟨rfl, by cases e <;> rfl, absurd rfl⟩, fun hs => ?_⟩
  obtain ⟨hfin, hval⟩ := encodes_real3Bits e (s.nextWord e)
  refine ⟨_, exec_real3_of_inv hs e, hfin, hval.trans ?_⟩
  cases e with
  | mt32 => rw [leadingBits_real3Width_mt32]; rfl
  | mt64 => rfl

/-- RES53 with E = 1 is illegal by clause (c) of R97, whatever the operand. -/
theorem decode_res53_mt64 (opa : Word64) : decode { cw := 0x123, opa := opa } = .error .res53OnMt64 := by
  simp [decode, decodeOp, cwOp, cwEngine, cwReserved]

/-- Settles O43: the conversion of the two words is exact. -/
theorem res53CombinesTwoWords : Obligations.Res53CombinesTwoWords := by
  refine fun s => ⟨fun opa => ⟨decode_eq_ok_iff.mpr ⟨rfl, rfl, absurd rfl⟩, decode_res53_mt64 opa⟩,
    fun hs => ?_⟩
  obtain ⟨hfin, hval⟩ := encodes_res53Bits (s.nextWord .mt32) ((s.afterWord .mt32).nextWord .mt32)
  refine ⟨_, execRes53_of_inv hs, hfin, hval.trans ?_⟩
  push_cast
  rfl

/-! ## The range laws (R207) -/

/-- Rounding does not pass an encoding from below. -/
theorem realValue_le_of_roundsTo {q : ℚ} {f h : Word64} (hf : RoundsTo q f) (hh : FiniteReal h)
    (hq : q ≤ realValue h) : realValue f ≤ realValue h := by
  have hnear := (hf h hh).1
  rw [abs_of_nonneg (sub_nonneg.mpr hq)] at hnear
  linarith [le_abs_self (realValue f - q)]

/-- Rounding does not pass an encoding from above. -/
theorem le_realValue_of_roundsTo {q : ℚ} {f h : Word64} (hf : RoundsTo q f) (hh : FiniteReal h)
    (hq : realValue h ≤ q) : realValue h ≤ realValue f := by
  have hnear := (hf h hh).1
  rw [abs_of_nonpos (sub_nonpos.mpr hq)] at hnear
  linarith [neg_abs_le (realValue f - q)]

theorem fmul_finite {x y : Word64} (h : realValue x * realValue y < 2 ^ 1023) : FiniteReal (fmul x y) := by
  rw [← fmul_eq_div] at h
  exact roundBinary64_finite _ _ (Nat.mul_pos (binaryValue_den_pos x) (binaryValue_den_pos y)) h

theorem fdiv_finite {x y : Word64} (hy : realValue y ≠ 0) (h : realValue x / realValue y < 2 ^ 1023) :
    FiniteReal (fdiv x y) := by
  rw [← fdiv_eq_div] at h
  exact roundBinary64_finite _ _ (Nat.mul_pos (binaryValue_den_pos x) (binaryValue_num_pos hy)) h

/-- What REAL1 multiplies a word by before it rounds: 1 / D, or the rounded reciprocal (R203). -/
def real1Factor (mode : Real1Mode) (d : Word64) : ℚ :=
  match mode with
  | .quotient => (realValue d)⁻¹
  | .reciprocal => realValue (fdiv (fp 1) d)

section Real1

variable {x d : Word64} {m k : ℕ}

/-- The rounded reciprocal of k lies between two encodings, 2^-53 and 1. -/
theorem reciprocal_range (hk : 0 < k) (hk53 : k < 2 ^ 53) (hd : Encodes d k) :
    0 < realValue (fdiv (fp 1) d) ∧ realValue (fdiv (fp 1) d) ≤ 1 := by
  obtain ⟨-, hd⟩ := hd
  have hkpos : (1 : ℚ) ≤ k := by exact_mod_cast hk
  have hklt : (k : ℚ) ≤ 2 ^ 53 := by exact_mod_cast hk53.le
  have hd0 : realValue d ≠ 0 := by rw [hd]; positivity
  obtain ⟨honefin, hone⟩ := encodes_fp_one
  obtain ⟨hlowfin, hlow⟩ := encodes_fp_one.fdiv_fpPow2 (m := 1) (j := 0) (k := 53) (by norm_num) (by norm_num)
    (by norm_num) (by norm_num)
  have hq : realValue (fp 1) / realValue d = 1 / k := by rw [hone, hd]
  have hle : (1 : ℚ) / k ≤ 1 := (div_le_one (by positivity)).mpr hkpos
  have hge : (1 : ℚ) / 2 ^ 53 ≤ 1 / k := one_div_le_one_div_of_le (by positivity) hklt
  have hfin : FiniteReal (fdiv (fp 1) d) := fdiv_finite hd0 (lt_two_pow_1023 (by linarith))
  have hround := fdiv_roundsTo hd0 hfin
  rw [hq] at hround
  constructor
  · refine lt_of_lt_of_le ?_ (le_realValue_of_roundsTo hround hlowfin (hlow.trans_le hge))
    rw [hlow]
    positivity
  · exact hone ▸ realValue_le_of_roundsTo hround honefin (hle.trans_eq hone.symm)

theorem real1Factor_range (mode : Real1Mode) (hk : 0 < k) (hk53 : k < 2 ^ 53) (hd : Encodes d k) :
    0 < real1Factor mode d ∧ real1Factor mode d ≤ 1 := by
  cases mode with
  | quotient =>
    have hkpos : (1 : ℚ) ≤ k := by exact_mod_cast hk
    rw [real1Factor, hd.2]
    exact ⟨by positivity, inv_le_one_of_one_le₀ hkpos⟩
  | reciprocal => exact reciprocal_range hk hk53 hd

/-- REAL1 rounds the product of the converted word and its factor. -/
theorem real1Quotient_roundsTo (mode : Real1Mode) (hd : realValue d ≠ 0)
    (hlt : realValue x * real1Factor mode d < 2 ^ 1023) :
    FiniteReal (real1Quotient mode x d) ∧ RoundsTo (realValue x * real1Factor mode d) (real1Quotient mode x d) := by
  cases mode with
  | quotient =>
    rw [real1Factor, ← div_eq_mul_inv] at hlt ⊢
    have hfin := fdiv_finite hd hlt
    exact ⟨hfin, fdiv_roundsTo hd hfin⟩
  | reciprocal => exact ⟨fmul_finite hlt, fmul_roundsTo (fmul_finite hlt)⟩

end Real1

theorem real1Bits_zero (mode : Real1Mode) (e : EngineId) : real1Bits mode e 0 = 0x0000000000000000 := by
  cases e <;> cases mode <;> decide

/-- The upper end that REAL1 reaches, in both modes (R207). -/
theorem real1Bits_allOnes (mode : Real1Mode) (e : EngineId) :
    real1Bits mode e (BitVec.allOnes e.width) = 0x3FF0000000000000 := by
  cases e <;> cases mode <;> decide

theorem encodes_one : Encodes 0x3FF0000000000000 1 := encodes_fp_one

theorem real1Factor_denominator_range (mode : Real1Mode) (e : EngineId) :
    0 < real1Factor mode (fp (real1Denominator e)) ∧ real1Factor mode (fp (real1Denominator e)) ≤ 1 :=
  real1Factor_range mode (real1Denominator_pos e) (real1Denominator_lt e) (encodes_fp (real1Denominator_lt e))

/-- REAL1 rounds the leading bits of the word times its factor. -/
theorem real1Bits_roundsTo (mode : Real1Mode) (e : EngineId) (y : BitVec e.width) :
    FiniteReal (real1Bits mode e y) ∧
    RoundsTo (leadingBits (real2Width e) y * real1Factor mode (fp (real1Denominator e))) (real1Bits mode e y) := by
  have hm := leadingBits_real2Width_lt_two_pow_53 e y
  obtain ⟨-, hx⟩ := encodes_fp hm
  obtain ⟨-, hd⟩ := encodes_fp (real1Denominator_lt e)
  have hd0 : realValue (fp (real1Denominator e)) ≠ 0 := by
    rw [hd]
    exact_mod_cast (real1Denominator_pos e).ne'
  have hle : leadingBits (real2Width e) y * real1Factor mode (fp (real1Denominator e)) ≤
      leadingBits (real2Width e) y :=
    mul_le_of_le_one_right (Nat.cast_nonneg _) (real1Factor_denominator_range mode e).2
  have hlt := lt_two_pow_1023 (hle.trans_lt (by exact_mod_cast hm))
  rw [← hx] at hlt ⊢
  rw [real1Bits_eq]
  exact real1Quotient_roundsTo mode hd0 hlt

theorem leadingBits_allOnes (e : EngineId) :
    leadingBits (real2Width e) (BitVec.allOnes e.width) = real1Denominator e := by cases e <;> decide

/-- Rounding keeps the order of values, and the largest word gives 1. -/
theorem realValue_real1Bits_le_one (mode : Real1Mode) (e : EngineId) (y : BitVec e.width) :
    realValue (real1Bits mode e y) ≤ 1 := by
  obtain ⟨hfin, hround⟩ := real1Bits_roundsTo mode e y
  obtain ⟨htopfin, htopround⟩ := real1Bits_roundsTo mode e (BitVec.allOnes e.width)
  have htop : realValue (real1Bits mode e (BitVec.allOnes e.width)) = 1 :=
    (congrArg realValue (real1Bits_allOnes mode e)).trans encodes_one.2
  have hle : leadingBits (real2Width e) y ≤ leadingBits (real2Width e) (BitVec.allOnes e.width) := by
    rw [leadingBits_allOnes]
    exact Nat.le_sub_one_of_lt (leadingBits_real2Width_lt e y)
  rw [← htop]
  obtain heq | hlt := hle.eq_or_lt
  · rw [real1Bits_eq, heq, ← real1Bits_eq]
  · have hbits : (leadingBits (real2Width e) y : ℚ) < leadingBits (real2Width e) (BitVec.allOnes e.width) := by
      exact_mod_cast hlt
    have hexact := mul_lt_mul_of_pos_right hbits (real1Factor_denominator_range mode e).1
    exact roundsTo_mono hexact hround htopround hfin htopfin

theorem realValue_real2Bits_lt_one (e : EngineId) (y : BitVec e.width) : realValue (real2Bits e y) < 1 := by
  rw [(encodes_real2Bits e y).2, div_lt_one (by positivity)]
  exact_mod_cast leadingBits_real2Width_lt e y

theorem realValue_real3Bits_range (e : EngineId) (y : BitVec e.width) :
    0 < realValue (real3Bits e y) ∧ realValue (real3Bits e y) < 1 := by
  have hm : (leadingBits (real3Width e) y + 1 : ℚ) ≤ 2 ^ real3Width e := by
    exact_mod_cast leadingBits_real3Width_lt e y
  rw [(encodes_real3Bits e y).2, div_lt_one (by positivity)]
  exact ⟨by positivity, by linarith⟩

theorem realValue_res53Bits_lt_one (a b : BitVec 32) : realValue (res53Bits a b) < 1 := by
  have ha : leadingBits 27 a < 2 ^ 27 := leadingBits_lt (by decide) a
  have hb : leadingBits 26 b < 2 ^ 26 := leadingBits_lt (by decide) b
  rw [(encodes_res53Bits a b).2, div_lt_one (by positivity)]
  exact_mod_cast (by omega : leadingBits 27 a * 2 ^ 26 + leadingBits 26 b < 2 ^ 53)

/-- Settles O44: REAL1 by the order of its roundings, the other reals by their exact values. -/
theorem realRangeLaws : Obligations.RealRangeLaws :=
  ⟨fun e y =>
    ⟨fun mode => ⟨(real1Bits_roundsTo mode e y).1, realValue_nonneg _, realValue_real1Bits_le_one mode e y⟩,
      ⟨(encodes_real2Bits e y).1, realValue_nonneg _, realValue_real2Bits_lt_one e y⟩,
      ⟨(encodes_real3Bits e y).1, realValue_real3Bits_range e y⟩⟩,
    fun a b => ⟨(encodes_res53Bits a b).1, realValue_nonneg _, realValue_res53Bits_lt_one a b⟩,
    fun e mode => ⟨real1Bits_zero mode e, real1Bits_allOnes mode e⟩,
    fun _ y _ hn _ => wordMod_lt y hn⟩

/-! ## Warmup (R208, R209) -/

theorem encode_warmup_cw (e : EngineId) (opa : Word64) : (encode (.warmup e opa)).cw = e.word 0x030 0x130 :=
  show (encode (.warmup e 0)).cw = e.word 0x030 0x130 by cases e <;> rfl

theorem exec_warmupEnt_of_data {s : State} {e : EngineId} {r : Word64} (h : s.entropyAnswer = .data r) :
    exec (.warmupEnt e) s = s.afterEntropy.discardWords e (warmupCount r) := by
  simp only [exec, execWarmupEnt, h]

theorem exec_warmupEnt_of_fail {s : State} {e : EngineId} (h : s.entropyAnswer = .fail) :
    exec (.warmupEnt e) s = .next (s.afterEntropy.raiseFault .entropy) := by
  simp only [exec, execWarmupEnt, h]

/-- Settles O45: discarding words leaves what as many extractions leave, and no extraction writes RES. -/
theorem warmupDiscardsCountWords : Obligations.WarmupDiscardsCountWords := by
  refine fun e opa => ⟨decode_eq_ok_iff.mpr ⟨rfl, encode_warmup_cw e opa, fun _ => rfl⟩,
    fun s hs => ⟨State.discardWords_of_inv hs e opa.toNat, ?_⟩⟩
  rw [State.hostRes, State.hostRes, State.iterate_afterWord_res, State.iterate_afterWord_resValid]

/-- Settles O46: one case for each answer of the entropy source. -/
theorem warmupEntropyDiscardsPrimeOrFaults : Obligations.WarmupEntropyDiscardsPrimeOrFaults := by
  refine fun e s => ⟨fun opa => decode_eq_ok_iff.mpr ⟨rfl, by cases e <;> rfl, absurd rfl⟩, fun r hs hr => ?_,
    fun hfail => ⟨_, exec_warmupEnt_of_fail hfail, State.faultTaken_raiseFault_afterEntropy s .entropy⟩⟩
  obtain ⟨hprime, hlt⟩ := warmupCount_spec r
  refine ⟨hprime, hlt, ?_⟩
  rw [exec_warmupEnt_of_data hr]
  exact State.discardWords_of_inv (State.inv_afterEntropy hs) e _

end Sys2Proof.Machine
end

section
/-! The faults of the block (spec/60_exceptions.md): what fault entry writes, which commands take a fault and with which
code, and the faulted block, which takes no command. -/

namespace Sys2Proof.Machine

/-! ## The faulted block (R252) -/

section Faulted

variable {s : State}

/-- A step of a block that is not ready takes at most the next input: no reset is pending and no offer is accepted. -/
theorem step_of_not_ready (hr : s.ready = false) (hrst : HostInput.rst ∉ s.hostIn) :
    ∃ rest, HostInput.rst ∉ rest ∧ step s = .next (s.setHostIn rest) := by
  match hin : s.hostIn with
  | [] => exact ⟨s.hostIn, hrst, step_of_nil hin⟩
  | .rst :: rest => exact absurd (hin ▸ List.mem_cons_self) hrst
  | .offer c :: rest =>
    refine ⟨rest, fun hmem => hrst (hin ▸ List.mem_cons_of_mem _ hmem), step_of_offer_not_ready hin ?_⟩
    simp [hr]

theorem run_succ_of_step {t : State} (h : step s = .next t) (n : Nat) : core.run (n + 1) s = core.run n t := by
  have hcore : core.step s = .next t := h
  simp only [Host.Core.run, hcore]

/-- However many steps it makes, such a block stays as it is but for the inputs still to come. -/
theorem run_of_not_ready (hr : s.ready = false) (hrst : HostInput.rst ∉ s.hostIn) (n : Nat) :
    ∃ rest, core.run n s = .next (s.setHostIn rest) := by
  induction n generalizing s with
  | zero => exact ⟨s.hostIn, rfl⟩
  | succ n ih =>
    obtain ⟨rest, hrest, hstep⟩ := step_of_not_ready hr hrst
    obtain ⟨rest', hrun⟩ := ih (s := s.setHostIn rest) hr hrest
    exact ⟨rest', (run_succ_of_step hstep n).trans hrun⟩

end Faulted

/-- Settles O10: a faulted block of the invariant is not ready, and all that its steps change is the list of inputs. -/
theorem faultedBlockIsQuiescent : Obligations.FaultedBlockIsQuiescent := by
  intro n s t hs hfaulted hrst hrun
  have hr : s.ready = false := by rw [hs.ready_eq, hfaulted]; rfl
  obtain ⟨rest, hrest⟩ := run_of_not_ready hr hrst n
  obtain rfl : s.setHostIn rest = t := Host.Outcome.next.inj (hrest.symm.trans hrun)
  exact ⟨hfaulted, hr, rfl, rfl, rfl, rfl, rfl, rfl, rfl, rfl, rfl, rfl⟩

/-! ## The fault a command takes (R250, R251) -/

section Commands

variable {i : Instr} {s t : State} {c : FaultCode}

/-- A command that meets a condition of R250's table takes the fault of that row. -/
theorem exec_of_cause (h : s.cause i = some c) : ∃ t, exec i s = .next t ∧ s.FaultTaken c t := by
  cases i with
  | seedEnt e =>
    obtain ⟨hfail, ⟨⟩⟩ := Option.ite_none_right_eq_some.mp h
    exact ⟨_, exec_seedEnt_of_fail hfail, s.faultTaken_raiseFault_afterEntropy .entropy⟩
  | warmupEnt e =>
    obtain ⟨hfail, ⟨⟩⟩ := Option.ite_none_right_eq_some.mp h
    exact ⟨_, exec_warmupEnt_of_fail hfail, s.faultTaken_raiseFault_afterEntropy .entropy⟩
  | keyPush e opa =>
    obtain ⟨hfull, ⟨⟩⟩ := Option.ite_none_right_eq_some.mp h
    exact ⟨_, exec_keyPush_of_full hfull, s.faultTaken_raiseFault .keyFull⟩
  | seedArr e =>
    obtain ⟨hempty, ⟨⟩⟩ := Option.ite_none_right_eq_some.mp h
    exact ⟨_, exec_seedArr_of_empty hempty, s.faultTaken_raiseFault .keyEmpty⟩
  | bounded e opa =>
    obtain ⟨hn, ⟨⟩⟩ := Option.ite_none_right_eq_some.mp h
    exact ⟨_, exec_bounded_of_nonpos hn, s.faultTaken_raiseFault .bound⟩
  | seed | keyClr | next | nextS | nextPos | nextT32 | real1 | real2 | real3 | res53 | warmup => cases h

/-- A legal command meets a condition of the table and takes its fault, or meets none and leaves STATUS as it is. -/
theorem fault_cases_of_exec (hwf : i.wellFormed = true) (h : exec i s = .next t) :
    (s.cause i = none ∧ t.status = s.status) ∨ ∃ c, s.cause i = some c ∧ s.FaultTaken c t := by
  match hcause : s.cause i with
  | none => exact .inl ⟨rfl, ((effect_of_exec h).record_eq hwf hcause).1⟩
  | some c =>
    obtain ⟨u, hu, htaken⟩ := exec_of_cause hcause
    obtain rfl : u = t := Host.Outcome.next.inj (hu.symm.trans h)
    exact .inr ⟨c, rfl, htaken⟩

/-- FCODE is 0 until a fault is taken (R38): of the six values of STATUS all but the first have FAULTED = 1. -/
theorem statusFcode_eq_zero {st : Word32} (hst : st ∈ statusValues) (hf : statusFaulted st = false) :
    statusFcode st = 0 := by
  simp only [statusValues, List.mem_cons, List.not_mem_nil, or_false] at hst
  obtain rfl | rfl | rfl | rfl | rfl | rfl := hst
  · decide
  all_goals exact absurd hf (by decide)

/-- FAULTED and FCODE after a legal command report its cause. -/
theorem status_fields_of_exec (hs : s.Inv) (hf : s.faulted = false) (hwf : i.wellFormed = true)
    (h : exec i s = .next t) :
    t.faulted = (s.cause i).isSome ∧ t.fcode = (s.cause i).elim 0 FaultCode.fcode := by
  obtain ⟨-, -, -, hvalue, -⟩ := hs
  obtain ⟨hcause, hst⟩ | ⟨c, hcause, hfaulted, -, hfcode, -⟩ := fault_cases_of_exec hwf h
  · rw [hcause]
    exact ⟨(congrArg statusFaulted hst).trans hf, (congrArg statusFcode hst).trans (statusFcode_eq_zero hvalue hf)⟩
  · rw [hcause]
    exact ⟨hfaulted, hfcode⟩

/-- The code of one row of R250's table. -/
theorem elim_fcode_ite (p : Prop) [Decidable p] (c : FaultCode) :
    (if p then some c else none).elim 0 FaultCode.fcode = if p then c.fcode else 0 :=
  apply_ite (Option.elim · 0 FaultCode.fcode) p (some c) none

end Commands

/-- Settles O11: a command that meets no condition of the table leaves FAULTED as it is, so one that ends faulted has
met a condition and done what fault entry does. -/
theorem faultEntryChangesOnlyTheRecord : Obligations.FaultEntryChangesOnlyTheRecord := by
  refine ⟨State.faultTaken_raiseFault, fun i s t hwf hf h ht => ?_⟩
  obtain ⟨-, hst⟩ | htaken := fault_cases_of_exec hwf h
  · have hft : t.faulted = s.faulted := congrArg statusFaulted hst
    simp [hft, hf] at ht
  · exact htaken

/-- Settles O12: STATUS reports the command's cause, whose code the table gives row by row; an illegal word takes
Fault(ILLEGAL) at the port. -/
theorem faultCausesAreTheTable : Obligations.FaultCausesAreTheTable := by
  refine ⟨fun i s hwf hs hf => ?_, fun s c rest x hin hr hd => ?_⟩
  · obtain ⟨t, ht⟩ := exec_of_inv hs i
    obtain ⟨hfaulted, hfcode⟩ := status_fields_of_exec hs hf hwf ht
    refine ⟨t, ht, hfaulted, hfcode.trans ?_⟩
    cases i with
    | bounded e opa => exact elim_fcode_ite _ .bound
    | seedEnt e => exact elim_fcode_ite _ .entropy
    | warmupEnt e => exact elim_fcode_ite _ .entropy
    | seedArr e => exact elim_fcode_ite _ .keyEmpty
    | keyPush e opa => exact elim_fcode_ite _ .keyFull
    | seed | keyClr | next | nextS | nextPos | nextT32 | real1 | real2 | real3 | res53 | warmup => rfl
  · obtain ⟨hfaulted, -, hfcode, -⟩ := State.faultTaken_raiseFault ((s.setHostIn rest).capture c) .illegal
    exact ⟨_, step_of_offer_illegal hin hr hd, hfaulted, hfcode⟩

end Sys2Proof.Machine
end

section
/-! The reset input (spec/70_reset_and_hazards.md): a step that takes it leaves every item with a stated reset value at
that value. -/

namespace Sys2Proof.Machine

/-! ## The reset input (R280) -/

/-- Either engine is an engine right after reset, its key store sized by the block's own KMAX. -/
theorem State.assertReset_engine (s : State) (e : EngineId) :
    s.assertReset.engine e = Engine.reset e.width e.consts.n s.params.kmax := by cases e <;> rfl

/-- Settles O3: the step is `assertReset`, which builds both engines and the port registers afresh and takes only the
parameters and the inputs from the state before. -/
theorem resetInputRestoresResetValues : Obligations.ResetInputRestoresResetValues := by
  intro s rest hin
  refine ⟨(s.setHostIn rest).assertReset, step_of_rst hin, fun e => ?_, State.assertReset_status _,
    State.assertReset_fcmd _, State.assertReset_fopa _, ?_, State.assertReset_params _, State.assertReset_hostIn _⟩
  · rw [State.assertReset_engine]
    exact ⟨rfl, rfl, rfl⟩
  · simp only [State.hostRes, State.assertReset_resValid, Bool.false_eq_true, if_false]

end Sys2Proof.Machine
end
